-- ==== Sys2Proof/Word.lean ====
section
/-! DEFINITION. The spec's `uN` values and the arithmetic of 00_scope.md R10, R11.

Every width of this hardware is a parameter of the instance (AW, CW, AW - TAG_SHIFT), so a `uN` value is
the natural number the spec says it is ("the integers 0 .. 2^N - 1"), and `Word.Fits` is the range. -/

namespace Sys2Proof

/-- `v` is a `uN` value for `N = n`: one of `0 .. 2^n - 1` (00_scope.md R10). -/
abbrev Word.Fits (n : Nat) (v : Nat) : Prop := v < 2 ^ n

/-- `a +_N b` of 00_scope.md R11: addition modulo `2^N`. -/
def Word.addWrap (n : Nat) (a b : Nat) : Nat := (a + b) % 2 ^ n

/-- `popcount(v)` of 00_scope.md R11, for a value of `n` bits. -/
def Word.popcount (n : Nat) (v : Nat) : Nat := ((List.range n).filter fun i => v.testBit i).length

end Sys2Proof
end

