-- ==== Sys2Proof/Config.lean ====
section
/-! DEFINITION. What is fixed when an instance is built (00_scope.md R6 to R9, 42_status_and_construction.md
R145 to R148), and the free values: constants without a body, of which nothing can be proved. -/

namespace Sys2Proof

/-- The parameters of an instance before any check (00_scope.md R7), and `LATENCY` (30_encoding.md R71).
All are OPEN: no rule and no statement assumes a value. -/
structure Params where
  /-- `AW`, the width of an address. -/
  aw : Nat
  /-- `CW`, the width of the clock, the timestamps and both counters. -/
  cw : Nat
  /-- `WAYS`, blocks per set. -/
  ways : Nat
  /-- `TOTAL_BLOCKS`, blocks in the array. -/
  totalBlocks : Nat
  /-- `SET_INDEX_SHIFT`. -/
  setIndexShift : Nat
  /-- `SET_INDEX_MASK`. -/
  setIndexMask : Nat
  /-- `TAG_SHIFT`. -/
  tagShift : Nat
  /-- `LATENCY`, clock cycles from acceptance to response. -/
  latency : Nat
deriving DecidableEq, Repr

/-- `M_EFF`, the largest set index an address can produce (00_scope.md R8). -/
def Params.mEff (p : Params) : Nat := p.setIndexMask &&& (2 ^ (p.aw - p.setIndexShift) - 1)

/-- `NUM_SETS`, the number of sets allocated (00_scope.md R8, 90_conflicts.md C10). -/
def Params.numSets (p : Params) : Nat := p.totalBlocks / p.ways

/-- `TW`, the width of a tag (00_scope.md R8). -/
def Params.tw (p : Params) : Nat := p.aw - p.tagShift

/-- `IW`, the number of address bits that take part in the set index (00_scope.md R8). -/
def Params.iw (p : Params) : Nat := Word.popcount p.aw p.mEff

/-- `GeomValid` of R145, its eight conjuncts in the order listed there. -/
abbrev Params.GeomValid (p : Params) : Prop :=
  1 ≤ p.aw ∧ 1 ≤ p.cw ∧ 1 ≤ p.ways ∧ p.totalBlocks % p.ways = 0 ∧ p.setIndexShift < p.aw ∧
    p.tagShift < p.aw ∧ p.setIndexMask < 2 ^ p.aw ∧ (p.mEff + 1) * p.ways ≤ p.totalBlocks

/-- `GeomCanonical` of R147: index and tag fields are adjacent and every block is reachable.
`IW < AW` is no extra condition, since `TAG_SHIFT = SET_INDEX_SHIFT + IW < AW`. -/
abbrev Params.GeomCanonical (p : Params) : Prop :=
  p.GeomValid ∧ ∃ iw, iw < p.aw ∧ p.setIndexMask = 2 ^ iw - 1 ∧
    p.tagShift = p.setIndexShift + iw ∧ p.totalBlocks = p.ways * 2 ^ iw

/-- The eight checks of CONSTRUCT, by the names of R145 and 60_exceptions.md R160. -/
inductive GeomCheck where
  | gAw | gCw | gWays | gDiv | gIshift | gTshift | gMask | gBounds
deriving DecidableEq, Repr

/-- A legal configuration: the parameters with the proof of `GeomValid` (R146: "a configuration type that
carries a proof of `GeomValid`"). A malformed geometry has no configuration, so no instance and no state. -/
structure Config extends Params where
  valid : toParams.GeomValid
deriving DecidableEq, Repr

/-- The geometry of the source's §8 scenario, the only one the source gives (00_scope.md R8, R9), with
`AW = 32`, `CW = 64` and `LATENCY = 0`. DESIGN CHOICE (log entry 1): used only to give `State.reset` a
value; statements range over every configuration. -/
def Config.sourceGeometry : Config where
  aw := 32
  cw := 64
  ways := 4
  totalBlocks := 1024
  setIndexShift := 5
  setIndexMask := 0xFF
  tagShift := 13
  latency := 0
  valid := by decide

/-- Free value: the contents of one element of state before the first reset (10_state.md R43), for an
instance number and an element number. No body: log entry 4. -/
opaque Config.powerOnWord : Nat → Nat → Nat

/-- Free value: what a counter port shows while a command is in flight (93_implementation_defined.md U14),
for the state's `freeIdx` and the status register number. No body: log entry 7. -/
opaque Config.inFlightPort : Nat → Nat → Nat

/-- Free value: `rsp_hit` in a cycle with `rsp_valid = 0` (30_encoding.md R70). No body: log entry 7. -/
opaque Config.idleRspHit : Nat → Bool

end Sys2Proof
end

