-- ==== Sys2Proof/Syntax.lean ====
section
/-! DEFINITION. The command set of the request port: the four rows of 30_encoding.md R72. -/

namespace Sys2Proof

/-- One command: its flavour (the two flags) and its one operand, the raw address (R74). -/
inductive Instr where
  /-- `ACC.N`: `access(address, false, false)`. -/
  | accN (address : Nat)
  /-- `ACC.W`: `access(address, false, true)`. -/
  | accW (address : Nat)
  /-- `ACC.R`: `access(address, true, false)`. -/
  | accR (address : Nat)
  /-- `ACC.RW`: `access(address, true, true)`. -/
  | accRW (address : Nat)
deriving DecidableEq, Repr

/-- The `ADDR` operand (R74). -/
def Instr.address : Instr → Nat
  | .accN a => a
  | .accW a => a
  | .accR a => a
  | .accRW a => a

/-- The `isRead` flag of the flavour (R72, "source call"). -/
def Instr.isRead : Instr → Bool
  | .accN _ => false
  | .accW _ => false
  | .accR _ => true
  | .accRW _ => true

/-- The `isWrite` flag of the flavour (R72, "source call"). -/
def Instr.isWrite : Instr → Bool
  | .accN _ => false
  | .accW _ => true
  | .accR _ => false
  | .accRW _ => true

end Sys2Proof
end

