-- ==== Sys2Proof/WellFormed.lean ====
section
/-! DEFINITION. Which terms of `Instr` are commands of an engine with `AW`-bit addresses. -/

namespace Sys2Proof

/-- The address operand fits the `AW` wires of `req_addr`: every such address is legal (20_memory.md R50)
and no other is written (30_encoding.md R78, "must be < 2^AW"). -/
abbrev Instr.WellFormed (aw : Nat) (i : Instr) : Prop := Word.Fits aw i.address

end Sys2Proof
end

