-- ==== Sys2Proof/Decode.lean ====
section
/-! DEFINITION. The command word (30_encoding.md R72 to R77): decoder, then encoder. -/

namespace Sys2Proof

/-- Why a number is no command word. Every `AW + 2`-bit value is a command (R76), so there is one reason. -/
inductive DecodeError where
  /-- The number has bits above bit `AW + 1`, which the request port has no wire for. -/
  | wordTooWide
deriving DecidableEq, Repr

/-- One row of the command table of R72: a word `c` is this command when `c & mask = pattern`. -/
structure CommandRow where
  pattern : Nat
  mask : Nat
  build : Nat → Instr

/-- The command table of R72, row by row. -/
def commandTable : List CommandRow :=
  [⟨0x0, 0x3, .accN⟩, ⟨0x1, 0x3, .accW⟩, ⟨0x2, 0x3, .accR⟩, ⟨0x3, 0x3, .accRW⟩]

/-- `C[AW+1:2]`, the `ADDR` field of a command word (R72): the address itself (R74). -/
def addrField (c : Nat) : Nat := c >>> 2

/-- The command a word stands for, in an engine with `AW = aw` (R72, R76). -/
def decode (aw : Nat) (c : Nat) : Except DecodeError Instr :=
  if c < 2 ^ (aw + 2) then
    match commandTable.find? fun r => c &&& r.mask == r.pattern with
    | some r => .ok (r.build (addrField c))
    | none => .error .wordTooWide
  else .error .wordTooWide

/-- A Boolean as one bit (00_scope.md R10). -/
def bit (b : Bool) : Nat := if b then 1 else 0

/-- `a ‖ b` of 00_scope.md R11, `b` being `n` bits wide. -/
def concat (a : Nat) (n : Nat) (b : Nat) : Nat := a * 2 ^ n + b

/-- `C = req_addr ‖ req_rd ‖ req_wr` (R72). -/
def commandWord (address : Nat) (isRead isWrite : Bool) : Nat :=
  concat (concat address 1 (bit isRead)) 1 (bit isWrite)

/-- The command word of an instruction (R72, R73). -/
def encode (i : Instr) : Nat := commandWord i.address i.isRead i.isWrite

/-- The decoder on a word numbered as spec/opcode_table.json numbers its bits, `nbits` of them given and
every bit above them 0. The engine stores no words: the number IS the command word, at the width of the
engine `State.reset` holds (log entry 1). -/
def decodeTableWord (nbits w : Nat) : Option Instr :=
  match decode Config.sourceGeometry.aw (w % 2 ^ nbits) with
  | .ok i => some i
  | .error _ => none

end Sys2Proof
end

