-- ==== Sys2Proof/Machine/State.lean ====
section
/-! DEFINITION. The state of one engine instance as plain data, why a step can stop, and the reset state
(10_state.md R20 to R42; the handshake of 30_encoding.md R70, R71). -/

namespace Sys2Proof.Machine

/-- One block of the array: the four fields of 10_state.md R20. -/
structure Block where
  /-- Whether the slot holds live data (R21). -/
  valid : Bool
  /-- Whether a write has hit or filled the block (R22). -/
  dirty : Bool
  /-- The `TW` high bits of the address of the line held (R23). -/
  tag : Nat
  /-- `lastAccessTime`, a `CW`-bit stamp (R24). -/
  lat : Nat
deriving DecidableEq, Repr

/-- A block after reset (R42). -/
def Block.unfilled : Block := ⟨false, false, 0, 0⟩

/-- A command that was accepted and whose response is not yet given (30_encoding.md R71). -/
structure InFlight where
  /-- The response it will give. -/
  hit : Bool
  /-- Clock cycles until the cycle of its response. -/
  left : Nat
deriving DecidableEq, Repr

/-- The values on the input ports in one clock cycle (30_encoding.md R70). -/
structure Pins where
  rst : Bool
  reqValid : Bool
  reqAddr : Nat
  reqRd : Bool
  reqWr : Bool
deriving DecidableEq, Repr

/-- One engine instance. `blk`, `clk`, `missCnt` and `wbCnt` are the whole architectural state of
10_state.md; `cfg` is the instance's constant configuration (00_scope.md R6); `hasReset`, `inFlight` and
`rsp` are what R43 and R71 imply; `pins` and `freeIdx` are the model's own (log entries 5 and 7). -/
structure State where
  /-- The configuration, which no operation writes. -/
  cfg : Config
  /-- The block array, `blk[0]` first. -/
  blk : List Block
  /-- `CLK`, the logical clock and access count (R27, R31). -/
  clk : Nat
  /-- `MISS_CNT` (R28). -/
  missCnt : Nat
  /-- `WB_CNT` (R29). -/
  wbCnt : Nat
  /-- RESET has been applied at least once (R43, 70_reset_and_hazards.md R182). -/
  hasReset : Bool
  /-- The command in flight, if any (30_encoding.md R71). -/
  inFlight : Option InFlight
  /-- The response port in the cycle that led here: `some hit` is `rsp_valid = 1` with that `rsp_hit`. -/
  rsp : Option Bool
  /-- What the requester and the reset pin drive in the coming cycles; after the last, nothing. -/
  pins : List Pins
  /-- Index of the next free port value. -/
  freeIdx : Nat
deriving DecidableEq, Repr

/-- Why the engine faults. The only exception of the spec (60_exceptions.md R160). -/
inductive Fault where
  /-- Raised by `construct` alone, when the geometry fails the named check first; no step raises it
  (R162). Safe: no instance exists, so nothing is claimed of one. -/
  | configFault (check : GeomCheck)
deriving DecidableEq, Repr

/-- Why the model gives no meaning. -/
inductive Refusal where
  /-- Raised by `exec` for an instruction without a meaning: none is left. Safe. -/
  | notModelled (mnemonic : String)
  /-- Raised by every access presented before the first RESET (10_state.md R43: "a model refuses it").
  Safe: the spec gives the access no meaning. -/
  | neverReset
  /-- Raised by an access whose address is no `AW`-bit value (30_encoding.md R78), which no request port
  can carry. Safe: no command of the spec has such an address. -/
  | addressTooWide
deriving DecidableEq, Repr

/-- The reset state of an instance with configuration `cfg` (10_state.md R42), with no command in flight,
no response and nothing on the input ports. -/
def State.resetOf (cfg : Config) : State where
  cfg := cfg
  blk := List.replicate cfg.totalBlocks Block.unfilled
  clk := 0
  missCnt := 0
  wbCnt := 0
  hasReset := true
  inFlight := none
  rsp := none
  pins := []
  freeIdx := 0

/-- The machine right after reset. Its configuration is a DESIGN CHOICE (log entry 1). -/
def State.reset : State := State.resetOf Config.sourceGeometry

end Sys2Proof.Machine
end

