-- ==== Sys2Proof/Machine/Flags.lean ====
section
/-! DEFINITION. The one-bit quantities of 10_state.md R33: `valid` and `dirty` of a block, and the match
test from which `hit` is made. -/

namespace Sys2Proof.Machine

/-- The match test (41_access.md R103): valid, and the stored tag is the computed tag. -/
def Block.isMatch (tag : Nat) (b : Block) : Bool := b.valid && b.tag == tag

/-- A matching block after a hit (R104): stamped, and made dirty by a write; a read leaves `dirty`. -/
def Block.stamp (now : Nat) (isWrite : Bool) (b : Block) : Block :=
  { b with dirty := b.dirty || isWrite, lat := now }

/-- The hit update of one block of the addressed set (R104). -/
def Block.hitUpdate (tag now : Nat) (isWrite : Bool) (b : Block) : Block :=
  if b.isMatch tag then b.stamp now isWrite else b

/-- `FILL` (R100): the block after a fill or a replacement. -/
def Block.filled (tag now : Nat) (isWrite : Bool) : Block :=
  { valid := true, dirty := isWrite, tag := tag, lat := now }

/-- The writeback test on the victim (R108): counted only for a read and write access. -/
def countsWriteback (isRead isWrite : Bool) (victim : Block) : Bool :=
  isRead && isWrite && victim.dirty

end Sys2Proof.Machine
end

