-- ==== Sys2Proof/Machine/Operands.lean ====
section
/-! DEFINITION. The one operand form, the address, and its decomposition (40_address_decomposer.md R90). -/

namespace Sys2Proof.Machine

/-- What `DECOMP` gives for an address (R90). -/
structure Decomp where
  setIndex : Nat
  tag : Nat
  base : Nat
deriving DecidableEq, Repr

/-- `DECOMP(address)` (R90). -/
def decomp (p : Params) (address : Nat) : Decomp :=
  let setIndex := (address >>> p.setIndexShift) &&& p.setIndexMask
  { setIndex := setIndex, tag := address >>> p.tagShift, base := setIndex * p.ways }

end Sys2Proof.Machine
end

