-- ==== Sys2Proof/Machine/Ops.lean ====
section
/-! DEFINITION. The named operations on the block array and the counters (41_access.md R100 to R109), the
reset operation (70_reset_and_hazards.md R180) and the clock-cycle bookkeeping of the request port.
There is no trap to enter or to return from (60_exceptions.md R165, R166). -/

namespace Sys2Proof.Machine

/-- Block `i` of the array; past the end of the array (which no access reaches) a reset block. -/
def State.block (s : State) (i : Nat) : Block := s.blk.getD i Block.unfilled

/-- The `WAYS` blocks of a set, way 0 first (10_state.md R25). -/
def setBlocks (ways base : Nat) (blk : List Block) : List Block := (blk.drop base).take ways

/-- The array with the blocks of one set replaced. -/
def writeSet (ways base : Nat) (set blk : List Block) : List Block :=
  blk.take base ++ set ++ blk.drop (base + ways)

/-- A counter's increment, `x +_CW 1` (10_state.md R27 to R30). -/
def increment (cw : Nat) (x : Nat) : Nat := Word.addWrap cw x 1

/-- The way of the first invalid block of a set, if any (41_access.md R107). -/
def firstInvalid (set : List Block) : Option Nat := set.findIdx? fun b => !b.valid

/-- The victim scan of R108 from way `w` on: `v` is the way chosen so far and `best` its stamp; a later
block wins only with a strictly smaller stamp. -/
def victimScan (w v : Nat) (best : Nat) : List Block → Nat
  | [] => v
  | b :: bs => if b.lat < best then victimScan (w + 1) w b.lat bs else victimScan (w + 1) v best bs

/-- The victim's way: the smallest `lat`, the lowest way among equals (R108). -/
def victim : List Block → Nat
  | [] => 0
  | b :: bs => victimScan 1 0 b.lat bs

/-- What an access does to its set: the blocks after it, the result, and whether a writeback counts. -/
structure SetOutcome where
  set : List Block
  hit : Bool
  writeback : Bool
deriving DecidableEq, Repr

/-- Steps 3 to 5 of `ACCESS` (R103 to R109) on the blocks of the addressed set. -/
def accessSet (tag now : Nat) (isRead isWrite : Bool) (set : List Block) : SetOutcome :=
  if set.any (Block.isMatch tag) then
    ⟨set.map (Block.hitUpdate tag now isWrite), true, false⟩
  else
    match firstInvalid set with
    | some w => ⟨set.set w (Block.filled tag now isWrite), false, false⟩
    | none =>
      ⟨set.set (victim set) (Block.filled tag now isWrite), false,
        countsWriteback isRead isWrite (set.getD (victim set) Block.unfilled)⟩

/-- What `ACCESS` does to the addressed set in state `s`, with `now` the clock after step 1 (R101). -/
def State.setOutcome (s : State) (address : Nat) (isRead isWrite : Bool) : SetOutcome :=
  let d := decomp s.cfg.toParams address
  accessSet d.tag (increment s.cfg.cw s.clk) isRead isWrite (setBlocks s.cfg.ways d.base s.blk)

/-- `ACCESS(address, isRead, isWrite)` (R100), its result left on the response port. -/
def State.access (s : State) (address : Nat) (isRead isWrite : Bool) : State :=
  let o := s.setOutcome address isRead isWrite
  { s with
    clk := increment s.cfg.cw s.clk
    blk := writeSet s.cfg.ways (decomp s.cfg.toParams address).base o.set s.blk
    missCnt := if o.hit then s.missCnt else increment s.cfg.cw s.missCnt
    wbCnt := if o.writeback then increment s.cfg.cw s.wbCnt else s.wbCnt
    rsp := some o.hit }

/-- The meaning all four commands share: `ACCESS`, which has a meaning once the engine has been reset
(10_state.md R43) and for an address of `AW` bits (20_memory.md R50). -/
def accessCommand (address : Nat) (isRead isWrite : Bool) (s : State) :
    Host.Outcome State Fault Refusal :=
  if s.hasReset then
    if address < 2 ^ s.cfg.aw then .next (s.access address isRead isWrite)
    else .refused .addressTooWide
  else .refused .neverReset

/-- `RESET` (70_reset_and_hazards.md R180): every element of state to its reset value; a command in
flight is abandoned and gives no response (R181). -/
def State.applyReset (s : State) : State :=
  { s with
    blk := List.replicate s.cfg.totalBlocks Block.unfilled
    clk := 0
    missCnt := 0
    wbCnt := 0
    hasReset := true
    inFlight := none
    rsp := none }

/-- A new clock cycle begins: its pins are taken off the list, the response port is empty. -/
def State.nextCycle (s : State) : State :=
  { s with pins := s.pins.tail, rsp := none, freeIdx := s.freeIdx + 1 }

/-- The response of a command just executed is due `LATENCY` cycles later (30_encoding.md R71): at once
if that is 0, else the command is in flight. -/
def State.launch (s : State) : State :=
  if s.cfg.latency = 0 then s
  else { s with rsp := none, inFlight := s.rsp.map fun hit => ⟨hit, s.cfg.latency⟩ }

/-- One cycle of a command in flight (R71): its response when the count has run out, else one less. -/
def State.countDown (f : InFlight) (s : State) : State :=
  if f.left ≤ 1 then { s with inFlight := none, rsp := some f.hit }
  else { s with inFlight := some ⟨f.hit, f.left - 1⟩ }

end Sys2Proof.Machine
end

