-- ==== Sys2Proof/Machine/Access.lean ====
section
/-! DEFINITION. The meanings of the four access commands (41_access.md R120 to R123): one algorithm, four
pairs of flags. -/

namespace Sys2Proof.Machine

/-- `ACC.N address` (R120): `ACCESS(address, isRead = 0, isWrite = 0)`; not a no-op. -/
def execAccN (address : Nat) (s : State) : Host.Outcome State Fault Refusal :=
  accessCommand address false false s

/-- `ACC.W address` (R122): `ACCESS(address, isRead = 0, isWrite = 1)`. -/
def execAccW (address : Nat) (s : State) : Host.Outcome State Fault Refusal :=
  accessCommand address false true s

/-- `ACC.R address` (R121): `ACCESS(address, isRead = 1, isWrite = 0)`. -/
def execAccR (address : Nat) (s : State) : Host.Outcome State Fault Refusal :=
  accessCommand address true false s

/-- `ACC.RW address` (R123): `ACCESS(address, isRead = 1, isWrite = 1)`. -/
def execAccRW (address : Nat) (s : State) : Host.Outcome State Fault Refusal :=
  accessCommand address true true s

end Sys2Proof.Machine
end

