-- ==== Sys2Proof/Machine/Dispatch.lean ====
section
/-! DEFINITION. One arm per command. -/

namespace Sys2Proof.Machine

def exec (i : Instr) (s : State) : Host.Outcome State Fault Refusal :=
  match i with
  | .accN address => Sys2Proof.Machine.execAccN address s
  | .accW address => Sys2Proof.Machine.execAccW address s
  | .accR address => Sys2Proof.Machine.execAccR address s
  | .accRW address => Sys2Proof.Machine.execAccRW address s

end Sys2Proof.Machine
end

