-- ==== Sys2Proof/Machine/Port.lean ====
section
/-! DEFINITION. The ports and one clock cycle of the handshake (30_encoding.md R70, R71;
70_reset_and_hazards.md R181, R183), and the read-out of the counters (42_status_and_construction.md R140). -/

namespace Sys2Proof.Machine

/-- A cycle in which nothing is driven: no reset, no command. -/
def Pins.idle : Pins := ⟨false, false, 0, false, false⟩

/-- The command word on the request port (30_encoding.md R72). -/
def Pins.word (p : Pins) : Nat := commandWord p.reqAddr p.reqRd p.reqWr

/-- The pins that present the command word `c` (R72). -/
def Pins.ofWord (c : Nat) : Pins :=
  { rst := false, reqValid := true, reqAddr := addrField c, reqRd := c.testBit 1, reqWr := c.testBit 0 }

/-- What is driven in the coming clock cycle. -/
def State.currentPins (s : State) : Pins := s.pins.head?.getD Pins.idle

/-- `req_ready` in the coming cycle (R71): low while a command is in flight. DESIGN CHOICE (log entry 11):
the port does not look at `rst`, so in a cycle with `rst = 1` it is high if nothing is in flight and low
otherwise; the spec gives no value there, and no command is accepted in that cycle whatever it is. -/
def State.reqReady (s : State) : Bool := s.inFlight.isNone

/-- A command is accepted (R71): it is executed, and its response is due `LATENCY` cycles later. The
effects are in place at acceptance, the earliest R71 allows (log entry 6). -/
def acceptCommand (word : Nat) (s : State) : Host.Outcome State Fault Refusal :=
  match decode s.cfg.aw word with
  | .error .wordTooWide => .refused .addressTooWide
  | .ok i =>
    match exec i s with
    | .next t => .next t.launch
    | .fault r => .fault r
    | .refused r => .refused r

/-- One clock cycle with the given pins: reset wins (70_reset_and_hazards.md R181); a command in flight
goes on and none is accepted (R183); else a command is accepted if one is presented; a cycle without a
command changes no state (30_encoding.md R75). -/
def cycle (p : Pins) (s : State) : Host.Outcome State Fault Refusal :=
  if p.rst then .next s.nextCycle.applyReset
  else
    match s.inFlight with
    | some f => .next (s.nextCycle.countDown f)
    | none => if p.reqValid then acceptCommand p.word s.nextCycle else .next s.nextCycle

/-- The output ports in the cycle that led to a state (30_encoding.md R70), but `req_ready`. -/
structure OutPorts where
  rspValid : Bool
  rspHit : Bool
  accCnt : Nat
  missCnt : Nat
  wbCnt : Nat
deriving DecidableEq, Repr

/-- A counter port (R140): the counter, or any `CW`-bit value while a command is in flight (U14). -/
def State.counterPort (s : State) (register : Nat) (value : Nat) : Nat :=
  if s.inFlight.isNone then value else Config.inFlightPort s.freeIdx register % 2 ^ s.cfg.cw

/-- The read-out (42_status_and_construction.md R140) and the response port (30_encoding.md R80).
DESIGN CHOICE (log entry 10): in a cycle with `rst = 1` the counter ports show the zeros that reset leaves,
also when a command was in flight; the spec does not say whether they do so in that cycle or after it. -/
def State.outPorts (s : State) : OutPorts where
  rspValid := s.rsp.isSome
  rspHit := s.rsp.getD (Config.idleRspHit s.freeIdx)
  accCnt := s.counterPort 0 s.clk
  missCnt := s.counterPort 1 s.missCnt
  wbCnt := s.counterPort 2 s.wbCnt

end Sys2Proof.Machine
end

