-- ==== Sys2Proof/Machine/Step.lean ====
section
/-! DEFINITION. One step of the machine: one clock cycle, with the pins that stand first in the state. -/

namespace Sys2Proof.Machine

/-- One clock cycle of the engine. -/
def step (s : State) : Host.Outcome State Fault Refusal := cycle s.currentPins s

/-- `s` with the command word `w` (its bits above `nbits` zero) on the request port in the coming cycle,
and the port ready to accept it. -/
def State.withFetchWord (s : State) (nbits w : Nat) : State :=
  { s with pins := Pins.ofWord (w % 2 ^ nbits) :: s.pins, inFlight := none }

end Sys2Proof.Machine
end

