-- ==== Sys2Proof/Machine/Construct.lean ====
section
/-! DEFINITION. `CONSTRUCT` (42_status_and_construction.md R145), the only place a fault arises. -/

namespace Sys2Proof.Machine

/-- One check of R145, as a test on the parameters. -/
def checkHolds (p : Params) : GeomCheck → Bool
  | .gAw => 1 ≤ p.aw
  | .gCw => 1 ≤ p.cw
  | .gWays => 1 ≤ p.ways
  | .gDiv => p.totalBlocks % p.ways == 0
  | .gIshift => p.setIndexShift < p.aw
  | .gTshift => p.tagShift < p.aw
  | .gMask => p.setIndexMask < 2 ^ p.aw
  | .gBounds => (p.mEff + 1) * p.ways ≤ p.totalBlocks

/-- The checks in the order of R145. -/
def checkOrder : List GeomCheck :=
  [.gAw, .gCw, .gWays, .gDiv, .gIshift, .gTshift, .gMask, .gBounds]

/-- The first check that fails, in that order (R145, 60_exceptions.md R164). -/
def firstFailing (p : Params) : Option GeomCheck := checkOrder.find? fun c => !checkHolds p c

/-- A block of an instance that was never reset: unspecified contents (10_state.md R43), from the free
values of the instance's elements `k` to `k + 3`. -/
def Block.powerOn (cfg : Config) (instanceNo k : Nat) : Block where
  valid := (Config.powerOnWord instanceNo k).testBit 0
  dirty := (Config.powerOnWord instanceNo (k + 1)).testBit 0
  tag := Config.powerOnWord instanceNo (k + 2) % 2 ^ cfg.tw
  lat := Config.powerOnWord instanceNo (k + 3) % 2 ^ cfg.cw

/-- An instance in an unspecified state, before its first reset (R43). -/
def State.powerOn (cfg : Config) (instanceNo : Nat) : State where
  cfg := cfg
  blk := (List.range cfg.totalBlocks).map fun i => Block.powerOn cfg instanceNo (3 + 4 * i)
  clk := Config.powerOnWord instanceNo 0 % 2 ^ cfg.cw
  missCnt := Config.powerOnWord instanceNo 1 % 2 ^ cfg.cw
  wbCnt := Config.powerOnWord instanceNo 2 % 2 ^ cfg.cw
  hasReset := false
  inFlight := none
  rsp := none
  pins := []
  freeIdx := 0

/-- `CONSTRUCT(cfg)` (R145): an instance in an unspecified state if `GeomValid` holds, else
`ConfigFault` with the first failing check. The last alternative is unreachable: some check fails. -/
def construct (p : Params) (instanceNo : Nat) : Host.Outcome State Fault Refusal :=
  if h : p.GeomValid then .next (State.powerOn ⟨p, h⟩ instanceNo)
  else .fault (.configFault ((firstFailing p).getD .gBounds))

end Sys2Proof.Machine
end

