-- ==== Sys2Proof/Machine/Trace.lean ====
section
/-! DEFINITION. The sequence semantics (20_memory.md R59: the fold of the operations, each atomic, in the
order presented) and the trace syntax (30_encoding.md R78). -/

namespace Sys2Proof.Machine

/-- One element of the input sequence (70_reset_and_hazards.md R181): a command or a RESET. -/
inductive Event where
  | command (i : Instr)
  | reset
deriving DecidableEq, Repr

/-- A sequence of operations applied one after the other (R59), with the responses in command order
(30_encoding.md R71). -/
def runTrace : List Event → State → Host.Outcome (State × List Bool) Fault Refusal
  | [], s => .next (s, [])
  | .reset :: es, s => runTrace es s.applyReset
  | .command i :: es, s =>
    match exec i s with
    | .next t =>
      match runTrace es t with
      | .next (u, hits) => .next (u, t.rsp.toList ++ hits)
      | .fault r => .fault r
      | .refused r => .refused r
    | .fault r => .fault r
    | .refused r => .refused r

/-- Why a line of text is no line of a trace (R78). -/
inductive TraceError where
  /-- Neither a mnemonic of R72 nor `RESET` stands first, or the operands are not exactly one address. -/
  | notACommand
  /-- The address is neither `0x` and hexadecimal digits nor decimal digits. -/
  | notAnAddress
  /-- The address is not below `2^AW`. -/
  | addressTooLarge
deriving DecidableEq, Repr

/-- The value of a hexadecimal digit. R78 writes `hexdigit` without saying the case; both are read. -/
def hexDigit (c : Char) : Option Nat :=
  if '0' ≤ c ∧ c ≤ '9' then some (c.toNat - 48)
  else if 'a' ≤ c ∧ c ≤ 'f' then some (c.toNat - 87)
  else if 'A' ≤ c ∧ c ≤ 'F' then some (c.toNat - 55)
  else none

/-- The value of a decimal digit. -/
def decDigit (c : Char) : Option Nat := if '0' ≤ c ∧ c ≤ '9' then some (c.toNat - 48) else none

/-- The number a run of digits denotes in the given base, `acc` being what was read before. -/
def readDigits (digit : Char → Option Nat) (base : Nat) : Nat → List Char → Option Nat
  | acc, [] => some acc
  | acc, c :: cs =>
    match digit c with
    | some d => readDigits digit base (acc * base + d) cs
    | none => none

/-- `address` of R78. -/
def readAddress (aw : Nat) (cs : List Char) : Except TraceError Nat :=
  let value :=
    match cs with
    | '0' :: 'x' :: d :: ds => readDigits hexDigit 16 0 (d :: ds)
    | d :: ds => readDigits decDigit 10 0 (d :: ds)
    | [] => none
  match value with
  | none => .error .notAnAddress
  | some a => if a < 2 ^ aw then .ok a else .error .addressTooLarge

/-- `mnemonic` of R78, with the constructor it names (R72). -/
def readMnemonic : List Char → Option (Nat → Instr)
  | ['A', 'C', 'C', '.', 'N'] => some .accN
  | ['A', 'C', 'C', '.', 'R'] => some .accR
  | ['A', 'C', 'C', '.', 'W'] => some .accW
  | ['A', 'C', 'C', '.', 'R', 'W'] => some .accRW
  | _ => none

/-- The blank-separated words of a line, `word` being the one under way, last letter first. -/
def lineWords (word : List Char) : List Char → List (List Char)
  | [] => if word.isEmpty then [] else [word.reverse]
  | c :: cs =>
    if c = ' ' ∨ c = '\t' then
      if word.isEmpty then lineWords [] cs else word.reverse :: lineWords [] cs
    else lineWords (c :: word) cs

/-- One `line` of R78 without its newline: a command, the directive `RESET`, or nothing. What follows
a `;` is a comment. -/
def readLine (aw : Nat) (line : List Char) : Except TraceError (Option Event) :=
  match lineWords [] (line.takeWhile (· != ';')) with
  | [] => .ok none
  | [['R', 'E', 'S', 'E', 'T']] => .ok (some .reset)
  | [m, a] =>
    match readMnemonic m with
    | none => .error .notACommand
    | some build => (readAddress aw a).map fun x => some (.command (build x))
  | _ => .error .notACommand

/-- The lines of a text, `line` being the one under way, last letter first. -/
def textLines (line : List Char) : List Char → List (List Char)
  | [] => [line.reverse]
  | c :: cs => if c = '\n' then line.reverse :: textLines [] cs else textLines (c :: line) cs

/-- A `trace` of R78 (a list of lines) as the sequence of its commands and resets, in order. -/
def readLines (aw : Nat) : List (List Char) → Except TraceError (List Event)
  | [] => .ok []
  | l :: ls =>
    match readLine aw l with
    | .error e => .error e
    | .ok none => readLines aw ls
    | .ok (some ev) => (readLines aw ls).map (ev :: ·)

/-- A whole trace text (R78). -/
def readTrace (aw : Nat) (text : List Char) : Except TraceError (List Event) :=
  readLines aw (textLines [] text)

end Sys2Proof.Machine
end

