-- ==== Sys2Proof/Safety.lean ====
section
/-! DEFINITION. The terms claims are made in: the addressed set seen block by block, the states that are
states of an engine, and the invariants of 10_state.md R37 to R41. None of it is used by the machine. -/

namespace Sys2Proof.Machine

/-! ## The addressed set -/

/-- The index in the array of way `w` of the set that `address` addresses (40_address_decomposer.md R93). -/
def State.wayIndex (s : State) (address : Nat) (w : Nat) : Nat :=
  (decomp s.cfg.toParams address).base + w

/-- Block `j` belongs to the set that `address` addresses (R93). -/
abbrev State.InSet (s : State) (address : Nat) (j : Nat) : Prop :=
  s.wayIndex address 0 ≤ j ∧ j < s.wayIndex address s.cfg.ways

/-- Block `j` is a match for `address` (41_access.md R103). -/
abbrev State.Matches (s : State) (address : Nat) (j : Nat) : Prop :=
  s.InSet address j ∧ (s.block j).valid = true ∧
    (s.block j).tag = (decomp s.cfg.toParams address).tag

/-- The access is a hit: some block of the set matches (R105). -/
abbrev State.Hits (s : State) (address : Nat) : Prop :=
  ∃ w, w < s.cfg.ways ∧ s.Matches address (s.wayIndex address w)

/-- The number of blocks of the set that do not match (`nonMatch` of R100). -/
def State.nonMatch (s : State) (address : Nat) : Nat :=
  ((List.range s.cfg.ways).filter fun w => ¬ s.Matches address (s.wayIndex address w)).length

/-- No block of the set is invalid. -/
abbrev State.SetFull (s : State) (address : Nat) : Prop :=
  ∀ w, w < s.cfg.ways → (s.block (s.wayIndex address w)).valid = true

/-- Way `w` holds the first invalid block of the set (R107). -/
abbrev State.IsFirstInvalid (s : State) (address : Nat) (w : Nat) : Prop :=
  w < s.cfg.ways ∧ (s.block (s.wayIndex address w)).valid = false ∧
    ∀ x, x < w → (s.block (s.wayIndex address x)).valid = true

/-- Way `w` has the smallest `lat` of the set, and the lowest index among equals (R108). -/
abbrev State.HasOldest (s : State) (address : Nat) (w : Nat) : Prop :=
  w < s.cfg.ways ∧ ∀ x, x < s.cfg.ways →
    (s.block (s.wayIndex address w)).lat ≤ (s.block (s.wayIndex address x)).lat ∧
      (x < w → (s.block (s.wayIndex address w)).lat < (s.block (s.wayIndex address x)).lat)

/-- Way `w` is the victim of a miss on `address` (R108). -/
abbrev State.IsVictim (s : State) (address : Nat) (w : Nat) : Prop :=
  ¬ s.Hits address ∧ s.SetFull address ∧ s.HasOldest address w

/-- Way `w` is written by a miss on `address`: filled (R107) or replaced (R109). -/
abbrev State.IsAllocated (s : State) (address : Nat) (w : Nat) : Prop :=
  ¬ s.Hits address ∧ (s.IsFirstInvalid address w ∨ (s.SetFull address ∧ s.HasOldest address w))

/-- The command `i` can be executed in `s`: the engine has been reset (10_state.md R43) and the address
fits the port (20_memory.md R50). Nothing else is asked of it. -/
abbrev State.Ready (s : State) (i : Instr) : Prop := s.hasReset = true ∧ i.WellFormed s.cfg.aw

/-- The no-wrap condition (10_state.md R30). -/
abbrev State.NoWrap (s : State) : Prop := s.clk < 2 ^ s.cfg.cw - 1

/-! ## Invariants -/

/-- `s` is a state of an engine: the array has `TOTAL_BLOCKS` blocks and every value is of its width
(10_state.md R20, R27 to R29); a command in flight has between 1 and `LATENCY` cycles left (30_encoding.md
R71); addresses on the pins are of `AW` bits (R70). -/
abbrev State.WF (s : State) : Prop :=
  s.blk.length = s.cfg.totalBlocks ∧
  (∀ b ∈ s.blk, b.tag < 2 ^ s.cfg.tw ∧ b.lat < 2 ^ s.cfg.cw) ∧
  s.clk < 2 ^ s.cfg.cw ∧ s.missCnt < 2 ^ s.cfg.cw ∧ s.wbCnt < 2 ^ s.cfg.cw ∧
  (∀ f ∈ s.inFlight.toList, 1 ≤ f.left ∧ f.left ≤ s.cfg.latency) ∧
  (∀ p ∈ s.pins, p.reqAddr < 2 ^ s.cfg.aw)

/-- Dirty implies valid (10_state.md R37). -/
abbrev State.DirtyImpliesValid (s : State) : Prop :=
  ∀ j, j < s.cfg.totalBlocks → (s.block j).dirty = true → (s.block j).valid = true

/-- No tag is held twice in a set (R38), for every allocated set. -/
abbrev State.NoDuplicateTags (s : State) : Prop :=
  ∀ k, k < s.cfg.numSets → ∀ v, v < s.cfg.ways → ∀ w, w < s.cfg.ways →
    (s.block (k * s.cfg.ways + v)).valid = true → (s.block (k * s.cfg.ways + w)).valid = true →
      (s.block (k * s.cfg.ways + v)).tag = (s.block (k * s.cfg.ways + w)).tag → v = w

/-- The valid blocks of a set are its first ways (R40). -/
abbrev State.ValidPrefix (s : State) : Prop :=
  ∀ k, k < s.cfg.numSets → ∀ w, w < s.cfg.ways → (s.block (k * s.cfg.ways + w)).valid = true →
    ∀ v, v < w → (s.block (k * s.cfg.ways + v)).valid = true

/-- Stamps of valid blocks lie in `1 .. CLK` and are all different; invalid blocks have stamp 0 (R39). -/
abbrev State.Timestamps (s : State) : Prop :=
  ∀ i, i < s.cfg.totalBlocks →
    ((s.block i).valid = true → 1 ≤ (s.block i).lat ∧ (s.block i).lat ≤ s.clk) ∧
    ((s.block i).valid = false → (s.block i).lat = 0) ∧
    ∀ j, j < s.cfg.totalBlocks → (s.block i).valid = true → (s.block j).valid = true →
      (s.block i).lat = (s.block j).lat → i = j

/-- `WB_CNT ≤ MISS_CNT ≤ CLK` (R41). -/
abbrev State.CounterOrder (s : State) : Prop := s.wbCnt ≤ s.missCnt ∧ s.missCnt ≤ s.clk

/-- The number of valid blocks in the whole array (R41). -/
def State.validCount (s : State) : Nat := s.blk.countP fun b => b.valid

/-! ## Runs -/

/-- Two states with the same engine: everything but the ports and the model's own fields. -/
abbrev State.SameEngine (s t : State) : Prop :=
  t.cfg = s.cfg ∧ t.blk = s.blk ∧ t.clk = s.clk ∧ t.missCnt = s.missCnt ∧ t.wbCnt = s.wbCnt ∧
    t.hasReset = s.hasReset

/-- The command on the request port: the flags and the address are the ports' (30_encoding.md R70, R72). -/
def Pins.command (p : Pins) : Instr :=
  match p.reqRd, p.reqWr with
  | false, false => .accN p.reqAddr
  | false, true => .accW p.reqAddr
  | true, false => .accR p.reqAddr
  | true, true => .accRW p.reqAddr

/-- What the engine takes in the coming cycle: a reset, a command it accepts, or nothing (30_encoding.md
R71, 70_reset_and_hazards.md R181). -/
def State.accepts (s : State) : Option Event :=
  if s.currentPins.rst then some .reset
  else if s.currentPins.reqValid && s.reqReady then some (.command s.currentPins.command)
  else none

/-- What the engine takes in the coming `n` cycles, in order. -/
def State.acceptsIn : Nat → State → List Event
  | 0, _ => []
  | n + 1, s =>
    match step s with
    | .next t => s.accepts.toList ++ State.acceptsIn n t
    | .fault _ => []
    | .refused _ => []

/-- The number of accesses of a run of commands that evict a valid block (glossary, "Eviction"). -/
def evictions : List Instr → State → Nat
  | [], _ => 0
  | i :: is, s =>
    match exec i s with
    | .next t =>
      (if ¬ s.Hits i.address ∧ s.SetFull i.address then 1 else 0) + evictions is t
    | .fault _ => 0
    | .refused _ => 0

/-- A trace of commands alone. -/
def commands (is : List Instr) : List Event := is.map Event.command

/-- Every access of a run of commands satisfies `P` in the state it meets. -/
def RunAll (P : Instr → State → Prop) : List Instr → State → Prop
  | [], _ => True
  | i :: is, s =>
    P i s ∧
      match exec i s with
      | .next t => RunAll P is t
      | .fault _ => True
      | .refused _ => True

/-- The responses given in the coming `n` cycles, in order. -/
def State.responsesIn : Nat → State → List Bool
  | 0, _ => []
  | n + 1, s =>
    match step s with
    | .next t => t.rsp.toList ++ State.responsesIn n t
    | .fault _ => []
    | .refused _ => []

/-- The response that is still due, if a command is in flight. -/
def State.owed (s : State) : List Bool := (s.inFlight.map InFlight.hit).toList

/-- What a check of R145 demands of the parameters. -/
def GeomCondition (p : Params) : GeomCheck → Prop
  | .gAw => 1 ≤ p.aw
  | .gCw => 1 ≤ p.cw
  | .gWays => 1 ≤ p.ways
  | .gDiv => p.totalBlocks % p.ways = 0
  | .gIshift => p.setIndexShift < p.aw
  | .gTshift => p.tagShift < p.aw
  | .gMask => p.setIndexMask < 2 ^ p.aw
  | .gBounds => (p.mEff + 1) * p.ways ≤ p.totalBlocks

/-- The place of a check in the order of R145. -/
def checkRank : GeomCheck → Nat
  | .gAw => 0
  | .gCw => 1
  | .gWays => 2
  | .gDiv => 3
  | .gIshift => 4
  | .gTshift => 5
  | .gMask => 6
  | .gBounds => 7

end Sys2Proof.Machine
end

