-- ==== Sys2Proof/Certificates/Slice0/Obligations.lean ====
section
/-! DEFINITION. The statements about the engine, each from the spec's numbered rules. Every statement about
an instance ranges over every legal configuration. -/

open Sys2Proof Sys2Proof.Machine

/-! ## The command word -/

/-- 30_encoding.md R73: the worked encodings and the general formula. The format is the spec's own decision
D10. -/
def Obligations.WorkedEncodings : Prop :=
  encode (.accR 0x2000) = 0x8002 ∧ encode (.accW 0x2020) = 0x8081 ∧ encode (.accRW 0x4000) = 0x10003 ∧
  encode (.accN 0) = 0x0 ∧ encode (.accRW 0xFFFFFFFF) = 0x3FFFFFFFF ∧
  ∀ i : Instr, encode i = i.address * 4 + i.isRead.toNat * 2 + i.isWrite.toNat

/-- One word of each command, written out from R72 (`ADDR ‖ R ‖ W`, the spec's decision D10), decodes to
that command. That a number with a bit above bit `AW + 1` is refused by the name `wordTooWide` (last
clause) is the model's choice, log entry 3. -/
def Obligations.DecodesWordsOfEveryCommand : Prop :=
  decode 32 0b100000000000000 = .ok (.accN 0x1000) ∧ decode 32 0b100000000000001 = .ok (.accW 0x1000) ∧
  decode 32 0b100000000000010 = .ok (.accR 0x1000) ∧ decode 32 0b100000000000011 = .ok (.accRW 0x1000) ∧
  decode 64 0x3FFFFFFFFFFFFFFFF = .ok (.accRW 0xFFFFFFFFFFFFFFFF) ∧
  decode 32 0x400000000 = .error .wordTooWide

/-- Decode and encode agree on every well-formed command, at every address width (R72, R74). -/
def Obligations.DecodeOfEncode : Prop :=
  ∀ (aw : Nat) (i : Instr), i.WellFormed aw → encode i < 2 ^ (aw + 2) ∧ decode aw (encode i) = .ok i

/-- R76, R74: every `AW + 2`-bit word is a command, whose address is the `ADDR` field and whose flags are
bits 1 and 0; encoding it gives the word back. The second clause, that a wider number is refused by the
name `wordTooWide`, is the model's choice, log entry 3: the spec has no such word. -/
def Obligations.EveryWordIsACommand : Prop :=
  ∀ (aw c : Nat),
    (c < 2 ^ (aw + 2) → ∃ i : Instr, decode aw c = .ok i ∧ i.WellFormed aw ∧ i.address = c / 4 ∧
      i.isRead = c.testBit 1 ∧ i.isWrite = c.testBit 0 ∧ encode i = c) ∧
    (2 ^ (aw + 2) ≤ c → decode aw c = .error .wordTooWide)

/-! ## Geometry -/

/-- 40_address_decomposer.md R98: the eight test points of the source's geometry. -/
def Obligations.DecompTestPoints : Prop :=
  ∀ p : Params, p.setIndexShift = 5 → p.setIndexMask = 0xFF → p.tagShift = 13 → p.ways = 4 →
    decomp p 0x00000000 = ⟨0, 0, 0⟩ ∧ decomp p 0x0000001F = ⟨0, 0, 0⟩ ∧
    decomp p 0x00000020 = ⟨1, 0, 4⟩ ∧ decomp p 0x00001FFF = ⟨255, 0, 1020⟩ ∧
    decomp p 0x00002000 = ⟨0, 1, 0⟩ ∧ decomp p 0x00002020 = ⟨1, 1, 4⟩ ∧
    decomp p 0x00004000 = ⟨0, 2, 0⟩ ∧ decomp p 0xFFFFFFFF = ⟨255, 0x7FFFF, 1020⟩

/-- R91: the largest set index an address produces is `M_EFF`, and an address produces it. -/
def Obligations.SetIndexRange : Prop :=
  ∀ cfg : Config,
    (∀ a, a < 2 ^ cfg.aw → (decomp cfg.toParams a).setIndex ≤ cfg.mEff) ∧
    cfg.mEff * 2 ^ cfg.setIndexShift < 2 ^ cfg.aw ∧
    (decomp cfg.toParams (cfg.mEff * 2 ^ cfg.setIndexShift)).setIndex = cfg.mEff

/-- R91, 10_state.md R25: the set indices an address produces are the values `x & M_EFF`, `2^IW` of them;
they are `0 .. 2^IW - 1` exactly when `M_EFF = 2^IW - 1`; `M_EFF` is the mask if no mask bit lies above
the shifted address. -/
def Obligations.ReachableSetIndices : Prop :=
  ∀ cfg : Config,
    (∀ k, (∃ a, a < 2 ^ cfg.aw ∧ (decomp cfg.toParams a).setIndex = k) ↔ k &&& cfg.mEff = k) ∧
    ((Finset.range (2 ^ cfg.aw)).image fun a => (decomp cfg.toParams a).setIndex).card = 2 ^ cfg.iw ∧
    ((∀ k, (∃ a, a < 2 ^ cfg.aw ∧ (decomp cfg.toParams a).setIndex = k) ↔ k < 2 ^ cfg.iw) ↔
      cfg.mEff = 2 ^ cfg.iw - 1) ∧
    (cfg.setIndexMask < 2 ^ (cfg.aw - cfg.setIndexShift) → cfg.mEff = cfg.setIndexMask)

/-- 20_memory.md R64: every block index an access computes is inside the array. -/
def Obligations.BlockIndexInArray : Prop :=
  ∀ (cfg : Config) (a : Nat), a < 2 ^ cfg.aw →
    (decomp cfg.toParams a).setIndex ≤ cfg.mEff ∧ (cfg.mEff + 1) * cfg.ways ≤ cfg.totalBlocks ∧
    ∀ w, w < cfg.ways →
      (decomp cfg.toParams a).setIndex * cfg.ways + w ≤ cfg.totalBlocks - 1 ∧
      (decomp cfg.toParams a).base + w < cfg.totalBlocks

/-- R92: a tag is of `TW` bits, every `TW`-bit value is the tag of an address, and with `TAG_SHIFT = 0` the
tag is the whole address. -/
def Obligations.TagRange : Prop :=
  ∀ cfg : Config,
    (∀ a, a < 2 ^ cfg.aw → (decomp cfg.toParams a).tag < 2 ^ cfg.tw) ∧
    (∀ t, t < 2 ^ cfg.tw → ∃ a, a < 2 ^ cfg.aw ∧ (decomp cfg.toParams a).tag = t) ∧
    (cfg.tagShift = 0 → ∀ a, (decomp cfg.toParams a).tag = a)

/-- R95: two addresses are one line to the engine exactly when they agree on the bits that enter the tag and
on the bits the mask lets into the set index; all other bits are ignored. -/
def Obligations.IgnoredAddressBits : Prop :=
  ∀ (cfg : Config) (a b : Nat), a < 2 ^ cfg.aw → b < 2 ^ cfg.aw →
    (decomp cfg.toParams a = decomp cfg.toParams b ↔
      ∀ k, k < cfg.aw →
        (cfg.tagShift ≤ k ∨
          (cfg.setIndexShift ≤ k ∧ cfg.setIndexMask.testBit (k - cfg.setIndexShift) = true)) →
        a.testBit k = b.testBit k)

/-- 42_status_and_construction.md R148: in a canonical configuration `M_EFF` is the mask, every block is in
an addressable set, set index and tag are the low and the high bits of the line number, and so two
addresses are one line to the engine iff their line numbers are equal. -/
def Obligations.CanonicalLinesDoNotAlias : Prop :=
  ∀ cfg : Config, cfg.toParams.GeomCanonical →
    cfg.mEff = cfg.setIndexMask ∧
    (∀ j, j < cfg.totalBlocks → ∃ a w, a < 2 ^ cfg.aw ∧ w < cfg.ways ∧
      j = (decomp cfg.toParams a).base + w) ∧
    (∃ iw, cfg.setIndexMask = 2 ^ iw - 1 ∧ ∀ a, a < 2 ^ cfg.aw →
      (decomp cfg.toParams a).setIndex = a / 2 ^ cfg.setIndexShift % 2 ^ iw ∧
      (decomp cfg.toParams a).tag = a / 2 ^ cfg.setIndexShift / 2 ^ iw) ∧
    ∀ a b, a < 2 ^ cfg.aw → b < 2 ^ cfg.aw →
      (decomp cfg.toParams a = decomp cfg.toParams b ↔
        a / 2 ^ cfg.setIndexShift = b / 2 ^ cfg.setIndexShift)

/-- R145, 60_exceptions.md R160, R164: construction gives an instance that was never reset exactly for a
valid geometry; otherwise the fault names the first check that fails, in the order of R145. The checks
and their order are in part the spec's own decisions D5, D6 and D25. -/
def Obligations.ConstructionChecksGeometry : Prop :=
  ∀ (p : Params) (n : Nat),
    (p.GeomValid → ∃ s, construct p n = .next s ∧ s.cfg.toParams = p ∧ s.hasReset = false) ∧
    (¬ p.GeomValid → ∃ c, construct p n = .fault (.configFault c) ∧ ¬ GeomCondition p c ∧
      ∀ d, checkRank d < checkRank c → GeomCondition p d)

/-! ## Reset -/

/-- 10_state.md R42, 70_reset_and_hazards.md R181: a cycle with `rst = 1` leaves exactly the reset state,
whatever the state held and whatever command is presented or in flight: nothing is accepted, no response
is given or owed, and the configuration is untouched. The reset values of `MISS_CNT`, `WB_CNT`, `tag`
and `lat` are the spec's decision D14, the abandoned command its decision D22. -/
def Obligations.ResetPinResetsEverything : Prop :=
  ∀ s : State, s.currentPins.rst = true →
    (∀ i, s.accepts ≠ some (.command i)) ∧
    ∃ t, step s = .next t ∧ t.clk = 0 ∧ t.missCnt = 0 ∧ t.wbCnt = 0 ∧
      t.blk.length = s.cfg.totalBlocks ∧
      (∀ j, j < s.cfg.totalBlocks → t.block j = ⟨false, false, 0, 0⟩) ∧ t.cfg = s.cfg ∧
      t.rsp = none ∧ t.inFlight = none ∧
      t = { State.resetOf s.cfg with pins := s.pins.tail, freeIdx := s.freeIdx + 1 }

/-- R180 (the spec's decision D14): RESET is idempotent: after two cycles with `rst = 1` the engine is as
after the first. -/
def Obligations.ResetIsIdempotent : Prop :=
  ∀ s t : State, s.currentPins.rst = true → step s = .next t → t.currentPins.rst = true →
    ∃ u, step t = .next u ∧ t.SameEngine u

/-- R180, its example, for every command and address: the first access after reset misses. The reset values
are in part the spec's decision D14. -/
def Obligations.FirstAccessAfterReset : Prop :=
  ∀ (cfg : Config) (i : Instr), i.WellFormed cfg.aw →
    ∃ t, exec i (State.resetOf cfg) = .next t ∧ t.rsp = some false ∧ t.clk = 1 ∧ t.missCnt = 1 ∧
      t.wbCnt = 0 ∧
      ∀ j, t.block j =
        if j = (decomp cfg.toParams i.address).base
        then ⟨true, i.isWrite, (decomp cfg.toParams i.address).tag, 1⟩ else ⟨false, false, 0, 0⟩

/-- 10_state.md R43 (the spec's decision D15; log entry 3): before the first reset an access is refused, by
the command and by the cycle that would accept it; a cycle without a command is not. -/
def Obligations.NeverResetEngineRefusesAccess : Prop :=
  ∀ s : State, s.hasReset = false →
    (∀ i : Instr, exec i s = .refused .neverReset) ∧
    (s.inFlight = none → s.currentPins.rst = false → s.currentPins.reqAddr < 2 ^ s.cfg.aw →
      step s = if s.currentPins.reqValid then .refused .neverReset else .next s.nextCycle)

/-! ## The access operation -/

/-- 41_access.md R105: an access is a hit iff some block of the set matches, that is iff fewer than `WAYS`
blocks do not; a hit leaves both counters and every block that does not match. -/
def Obligations.HitIffSomeBlockMatches : Prop :=
  ∀ (i : Instr) (s : State), s.Ready i →
    ∃ t, exec i s = .next t ∧
      (t.rsp = some true ↔ s.Hits i.address) ∧ (t.rsp = some false ↔ ¬ s.Hits i.address) ∧
      (s.Hits i.address ↔ s.nonMatch i.address < s.cfg.ways) ∧
      (s.Hits i.address → t.missCnt = s.missCnt ∧ t.wbCnt = s.wbCnt ∧
        ∀ j, ¬ s.Matches i.address j → t.block j = s.block j)

/-- R104, with R101 (on two matching blocks the spec's decision D18 keeps the source's words): on a hit
every matching block is stamped with the new clock and a write makes it dirty; `valid`, `tag` and, if it
is no write, `dirty` stay. -/
def Obligations.HitUpdatesEveryMatchingBlock : Prop :=
  ∀ (i : Instr) (s : State), s.Ready i → s.Hits i.address →
    ∃ t, exec i s = .next t ∧ t.clk = (s.clk + 1) % 2 ^ s.cfg.cw ∧
      ∀ j, t.block j =
        if s.Matches i.address j then
          { s.block j with lat := t.clk, dirty := (s.block j).dirty || i.isWrite }
        else s.block j

/-- R106, R107: a miss in a set with an invalid block fills the first one and evicts nothing. -/
def Obligations.MissFillsFirstInvalidBlock : Prop :=
  ∀ (i : Instr) (s : State) (w : Nat), s.WF → s.Ready i → ¬ s.Hits i.address →
    s.IsFirstInvalid i.address w →
    ∃ t, exec i s = .next t ∧ t.rsp = some false ∧ t.clk = (s.clk + 1) % 2 ^ s.cfg.cw ∧
      t.missCnt = (s.missCnt + 1) % 2 ^ s.cfg.cw ∧ t.wbCnt = s.wbCnt ∧
      ∀ j, t.block j =
        if j = (decomp s.cfg.toParams i.address).base + w
        then ⟨true, i.isWrite, (decomp s.cfg.toParams i.address).tag, t.clk⟩ else s.block j

/-- R108, R109: a miss in a full set replaces the block of smallest `lat`, the lowest way among equals, and
counts a writeback iff the access reads and writes and that block is dirty before it. -/
def Obligations.MissReplacesOldestBlock : Prop :=
  ∀ (i : Instr) (s : State) (w : Nat), s.WF → s.Ready i → ¬ s.Hits i.address →
    s.SetFull i.address → s.HasOldest i.address w →
    ∃ t, exec i s = .next t ∧ t.rsp = some false ∧ t.clk = (s.clk + 1) % 2 ^ s.cfg.cw ∧
      t.missCnt = (s.missCnt + 1) % 2 ^ s.cfg.cw ∧
      t.wbCnt =
        (if i.isRead ∧ i.isWrite ∧ (s.block ((decomp s.cfg.toParams i.address).base + w)).dirty
        then (s.wbCnt + 1) % 2 ^ s.cfg.cw else s.wbCnt) ∧
      ∀ j, t.block j =
        if j = (decomp s.cfg.toParams i.address).base + w
        then ⟨true, i.isWrite, (decomp s.cfg.toParams i.address).tag, t.clk⟩ else s.block j

/-- R112, R76: each of the four commands completes for every address the port can carry, in every state of
an engine that was reset, with the clock advanced by one and the result on the response port. -/
def Obligations.EveryCommandCompletes : Prop :=
  ∀ (s : State) (a : Nat), s.hasReset = true → a < 2 ^ s.cfg.aw →
    ∀ i ∈ [Instr.accN a, Instr.accW a, Instr.accR a, Instr.accRW a],
      ∃ t, exec i s = .next t ∧ t.clk = (s.clk + 1) % 2 ^ s.cfg.cw ∧
        t.rsp = some (decide (s.Hits a)) ∧
        t.missCnt = if s.Hits a then s.missCnt else (s.missCnt + 1) % 2 ^ s.cfg.cw

/-- R120, its last corner case (the spec's decision D17): `ACC.N` acts on the state as `ACC.R` does. -/
def Obligations.NeitherFlagActsAsRead : Prop :=
  ∀ (s : State) (a : Nat), exec (.accN a) s = exec (.accR a) s

/-- R124: `ACC.W` and `ACC.RW` differ at most in `WB_CNT`; `ACC.R` and `ACC.W` differ at most in the `dirty`
bits of the addressed set, and in no block of another set. -/
def Obligations.FlavoursDifferOnlyInDirtyAndWriteback : Prop :=
  ∀ (s : State) (a : Nat), s.hasReset = true → a < 2 ^ s.cfg.aw →
    ∃ r w rw, exec (.accR a) s = .next r ∧ exec (.accW a) s = .next w ∧ exec (.accRW a) s = .next rw ∧
      w = { rw with wbCnt := w.wbCnt } ∧ w = { r with blk := w.blk } ∧
      ∀ j, w.block j = { r.block j with dirty := (w.block j).dirty } ∧
        (¬ s.InSet a j → w.block j = r.block j)

/-- R110: what an access does not touch. -/
def Obligations.AccessFrame : Prop :=
  ∀ (i : Instr) (s t : State), s.WF → exec i s = .next t →
    t.cfg = s.cfg ∧ t.hasReset = s.hasReset ∧ t.inFlight = s.inFlight ∧ t.pins = s.pins ∧
    t.freeIdx = s.freeIdx ∧ t.blk.length = s.blk.length ∧ t.clk = (s.clk + 1) % 2 ^ s.cfg.cw ∧
    (∀ j, ¬ s.InSet i.address j → t.block j = s.block j) ∧
    (s.Hits i.address → t.missCnt = s.missCnt ∧ t.wbCnt = s.wbCnt ∧
      ∀ j, (t.block j).valid = (s.block j).valid ∧ (t.block j).tag = (s.block j).tag ∧
        (¬ s.Matches i.address j → t.block j = s.block j)) ∧
    (¬ s.Hits i.address → t.missCnt = (s.missCnt + 1) % 2 ^ s.cfg.cw ∧
      ∃ w, s.IsAllocated i.address w ∧ ∀ j, t.block j =
        if j = s.wayIndex i.address w
        then ⟨true, i.isWrite, (decomp s.cfg.toParams i.address).tag, t.clk⟩ else s.block j)

/-- 10_state.md R29: when an access increments `WB_CNT`, that every other access leaves it, and that a cycle
that takes neither an access nor a reset leaves it. That no cycle of a command in flight changes
`WB_CNT` (first clause) rests on the model's choice of the moment of an access's effects, its acceptance
(log entry 6), which R71 does not force. -/
def Obligations.WritebackCountedExactlyWhen : Prop :=
  (∀ s t : State, step s = .next t → s.accepts = none → t.wbCnt = s.wbCnt) ∧
  ∀ (i : Instr) (s : State), s.WF → s.Ready i →
    ∃ t, exec i s = .next t ∧
      ((i.isRead = true ∧ i.isWrite = true ∧
          ∃ w, s.IsVictim i.address w ∧ (s.block (s.wayIndex i.address w)).dirty = true) →
        t.wbCnt = (s.wbCnt + 1) % 2 ^ s.cfg.cw) ∧
      (¬ (i.isRead = true ∧ i.isWrite = true ∧
          ∃ w, s.IsVictim i.address w ∧ (s.block (s.wayIndex i.address w)).dirty = true) →
        t.wbCnt = s.wbCnt)

/-- R30 (the spec's decision D3): each counter that an access increments at `2^CW - 1` goes to 0, whatever
the other counters hold, and the access completes: `CLK` on every access, `MISS_CNT` on a miss, `WB_CNT`
where a writeback is counted (R29). -/
def Obligations.CountersWrapToZero : Prop :=
  ∀ (i : Instr) (s : State), s.Ready i →
    ∃ t, exec i s = .next t ∧ t.rsp = some (decide (s.Hits i.address)) ∧
      (s.clk = 2 ^ s.cfg.cw - 1 → t.clk = 0) ∧
      (¬ s.Hits i.address → s.missCnt = 2 ^ s.cfg.cw - 1 → t.missCnt = 0) ∧
      (s.WF → i.isRead = true → i.isWrite = true →
        (∃ w, s.IsVictim i.address w ∧ (s.block (s.wayIndex i.address w)).dirty = true) →
        s.wbCnt = 2 ^ s.cfg.cw - 1 → t.wbCnt = 0)

/-- 60_exceptions.md R162, outside the condition of 10_state.md R43 (decision D15): nothing at run time
faults, and from a state of an engine that was reset every clock cycle has a next state, whatever is on
the pins. -/
def Obligations.NoCycleFaults : Prop :=
  (∀ (i : Instr) (s : State) (r : Fault), exec i s ≠ .fault r) ∧
  (∀ (s : State) (r : Fault), step s ≠ .fault r) ∧
  ∀ s : State, s.WF → s.hasReset = true → ∃ t, step s = .next t

/-- R125: after an access exactly one block of the set matches its address, stamped with the clock; its
stamp is the largest of the array under the no-wrap condition; the next access to the line hits. -/
def Obligations.AccessedLineIsPresentOnce : Prop :=
  ∀ (i : Instr) (s : State), s.WF → s.Ready i → s.NoDuplicateTags →
    ∃ t, exec i s = .next t ∧
      (∃ w, w < s.cfg.ways ∧ t.Matches i.address (t.wayIndex i.address w) ∧
        (t.block (t.wayIndex i.address w)).lat = t.clk ∧
        (∀ j, t.Matches i.address j → j = t.wayIndex i.address w) ∧
        (s.Timestamps → s.NoWrap → ∀ j, j < s.cfg.totalBlocks → j ≠ t.wayIndex i.address w →
          (t.block j).lat < (t.block (t.wayIndex i.address w)).lat)) ∧
      ∀ k : Instr, k.WellFormed s.cfg.aw →
        decomp s.cfg.toParams k.address = decomp s.cfg.toParams i.address →
        ∃ u, exec k t = .next u ∧ u.rsp = some true

/-- R111: where invalid blocks have stamp 0 and valid ones at least 1, the two scans of R107 and R108 select
the block that one scan for the smallest stamp selects, and the writeback test may be made on that block
with its `valid` bit. -/
def Obligations.OneScanSelectsTheSameBlock : Prop :=
  ∀ (i : Instr) (s : State) (w : Nat), s.WF → s.Ready i →
    (∀ j, j < s.cfg.totalBlocks → ((s.block j).valid = true → 1 ≤ (s.block j).lat) ∧
      ((s.block j).valid = false → (s.block j).lat = 0)) → s.DirtyImpliesValid →
    ¬ s.Hits i.address → s.HasOldest i.address w →
    (∀ x, s.IsAllocated i.address x ↔ x = w) ∧
    ∃ t, exec i s = .next t ∧
      t.wbCnt =
        if i.isRead ∧ i.isWrite ∧ (s.block (s.wayIndex i.address w)).valid ∧
            (s.block (s.wayIndex i.address w)).dirty
        then (s.wbCnt + 1) % 2 ^ s.cfg.cw else s.wbCnt

/-! ## Invariants -/

/-- Every state a clock cycle answers is a state of an engine: array length, widths, handshake. -/
def Obligations.StepKeepsShape : Prop :=
  ∀ s t : State, s.WF → step s = .next t → t.WF

/-- R37: dirty implies valid, kept by every clock cycle; no no-wrap condition. -/
def Obligations.StepKeepsDirtyImpliesValid : Prop :=
  ∀ s t : State, s.WF → s.DirtyImpliesValid → step s = .next t → t.DirtyImpliesValid

/-- R38: no set holds a tag twice, kept by every clock cycle; no no-wrap condition. -/
def Obligations.StepKeepsNoDuplicateTags : Prop :=
  ∀ s t : State, s.WF → s.NoDuplicateTags → step s = .next t → t.NoDuplicateTags

/-- R40: the valid blocks of a set are its first ways, kept by every clock cycle. -/
def Obligations.StepKeepsValidPrefix : Prop :=
  ∀ s t : State, s.WF → s.ValidPrefix → step s = .next t → t.ValidPrefix

/-- R39: the timestamps, kept with R38 by every clock cycle under the no-wrap condition. -/
def Obligations.StepKeepsTimestamps : Prop :=
  ∀ s t : State, s.WF → s.NoDuplicateTags → s.Timestamps → s.NoWrap → step s = .next t →
    t.Timestamps

/-- R41: `WB_CNT ≤ MISS_CNT ≤ CLK`, kept by every clock cycle under the no-wrap condition. -/
def Obligations.StepKeepsCounterOrder : Prop :=
  ∀ s t : State, s.CounterOrder → s.NoWrap → step s = .next t → t.CounterOrder

/-- The invariants of R37 to R41 and the shape hold in the reset state of every configuration. -/
def Obligations.InvariantsHoldAtReset : Prop :=
  ∀ cfg : Config, (State.resetOf cfg).WF ∧ (State.resetOf cfg).DirtyImpliesValid ∧
    (State.resetOf cfg).NoDuplicateTags ∧ (State.resetOf cfg).ValidPrefix ∧
    (State.resetOf cfg).Timestamps ∧ (State.resetOf cfg).CounterOrder

/-- R41, second clause: from reset, without a wrap, the miss count is the number of valid blocks plus the
number of evictions. -/
def Obligations.MissesAreValidBlocksPlusEvictions : Prop :=
  ∀ (cfg : Config) (is : List Instr), (∀ i ∈ is, i.WellFormed cfg.aw) → is.length < 2 ^ cfg.cw →
    ∃ t hits, runTrace (commands is) (State.resetOf cfg) = .next (t, hits) ∧
      t.missCnt = t.validCount + evictions is (State.resetOf cfg)

/-- R41, second clause, over every state: an access keeps `MISS_CNT` minus valid blocks minus evictions, and
a clock cycle does for what it takes: nothing, a reset, or a command, whose effects the model puts into
the cycle of its acceptance (log entry 6). -/
def Obligations.EveryMissFillsOrEvicts : Prop :=
  (∀ (i : Instr) (s t : State), s.WF → s.CounterOrder → s.NoWrap → exec i s = .next t →
    t.missCnt + s.validCount =
      s.missCnt + t.validCount + if ¬ s.Hits i.address ∧ s.SetFull i.address then 1 else 0) ∧
  ∀ s t : State, s.WF → s.CounterOrder → s.NoWrap → step s = .next t →
    (s.accepts = none → t.missCnt = s.missCnt ∧ t.validCount = s.validCount) ∧
    (s.accepts = some .reset → t.missCnt = 0 ∧ t.validCount = 0) ∧
    ∀ i, s.accepts = some (.command i) →
      t.missCnt + s.validCount =
        s.missCnt + t.validCount + if ¬ s.Hits i.address ∧ s.SetFull i.address then 1 else 0

/-- 10_state.md R21, 20_memory.md R63: nothing but a reset makes a valid block invalid. -/
def Obligations.OnlyResetInvalidates : Prop :=
  ∀ (s t : State) (j : Nat), step s = .next t → (s.block j).valid = true →
    (t.block j).valid = false → s.accepts = some .reset

/-- R63, R22: a dirty block becomes clean only by a reset or by being written by a miss with `isWrite = 0`.
That it does so in the cycle that accepts the command is the model's choice of the moment of an access's
effects (log entry 6), which R71 does not force. -/
def Obligations.DirtyClearedOnlyByReplacement : Prop :=
  ∀ (s t : State) (j : Nat), s.WF → step s = .next t → (s.block j).dirty = true →
    (t.block j).dirty = false →
    s.accepts = some .reset ∨
      ∃ i w, s.accepts = some (.command i) ∧ i.isWrite = false ∧ s.IsAllocated i.address w ∧
        j = s.wayIndex i.address w

/-- 10_state.md R25: a block of a set whose index no address produces keeps its reset value for ever. -/
def Obligations.UnreachableBlocksKeepResetValue : Prop :=
  ∀ (s t : State) (j : Nat), (j / s.cfg.ways) &&& s.cfg.mEff ≠ j / s.cfg.ways →
    s.block j = Block.unfilled → step s = .next t → t.block j = Block.unfilled

/-- 00_scope.md R6 (the spec's decision D5; log entry 1): no clock cycle changes the configuration. -/
def Obligations.ConfigurationIsConstant : Prop :=
  ∀ s t : State, step s = .next t → t.cfg = s.cfg

/-! ## The handshake -/

/-- A cycle that presents a command word which decodes runs that command: `step` is `exec` of it in the
state whose pins were taken off the list (log entry 5), and `launch` then delays the response by
`LATENCY` (30_encoding.md R71, the spec's decision D9). That the accepting cycle runs the whole of
`exec` and only the response waits is the model's choice (log entry 6): R71 only bounds the moment. -/
def Obligations.StepRunsDecodedCommand : Prop :=
  ∀ (s : State) (i : Instr), s.currentPins.rst = false → s.currentPins.reqValid = true →
    s.inFlight = none → decode s.cfg.aw s.currentPins.word = .ok i →
    i = s.currentPins.command ∧
    step s =
      match exec i s.nextCycle with
      | .next t => .next t.launch
      | .fault r => .fault r
      | .refused r => .refused r

/-- 70_reset_and_hazards.md R183 (the handshake is the spec's decision D9; when the effects are in place is
log entry 6): while a command is in flight nothing is accepted, whatever is presented; the engine does
not change and the response comes in the last cycle of the count. That `req_ready` is high in the next
cycle also when that one has `rst = 1` is the model's choice (log entry 11). -/
def Obligations.BusyEngineAcceptsNothing : Prop :=
  ∀ (s : State) (f : InFlight), s.inFlight = some f → s.currentPins.rst = false →
    s.reqReady = false ∧ s.accepts = none ∧
    ∃ t, step s = .next t ∧ s.SameEngine t ∧
      (f.left ≤ 1 → t.rsp = some f.hit ∧ t.reqReady = true) ∧
      (1 < f.left → t.rsp = none ∧ t.inFlight = some ⟨f.hit, f.left - 1⟩)

/-- 30_encoding.md R75 (the spec's decision D27), 60_exceptions.md R173: a cycle without command and reset
changes no state and no counter port. -/
def Obligations.IdleCycleChangesNothing : Prop :=
  ∀ s : State, s.currentPins.rst = false → s.currentPins.reqValid = false → s.inFlight = none →
    ∃ t, step s = .next t ∧ s.SameEngine t ∧ t.inFlight = none ∧ t.outPorts.rspValid = false ∧
      t.outPorts.accCnt = s.outPorts.accCnt ∧ t.outPorts.missCnt = s.outPorts.missCnt ∧
      t.outPorts.wbCnt = s.outPorts.wbCnt

/-- 42_status_and_construction.md R140 (the spec's decision D9): with no command in flight the three ports
show the counters, and a valid response shows the result. That they do so already in a cycle with `rst =
1` is the model's choice (log entry 10). -/
def Obligations.PortsShowCounters : Prop :=
  ∀ s : State, s.inFlight = none →
    s.outPorts.accCnt = s.clk ∧ s.outPorts.missCnt = s.missCnt ∧ s.outPorts.wbCnt = s.wbCnt ∧
    ∀ hit, s.rsp = some hit → s.outPorts.rspValid = true ∧ s.outPorts.rspHit = hit

/-- R71 (the spec's decision D9; log entry 6): an accepted command is answered in the cycle `LATENCY` cycles
after its acceptance and in none before; until then `req_ready` is low; with the response all its
effects are in place. That `req_ready` is high in the next cycle also when that one has `rst = 1` is the
model's choice (log entry 11). -/
def Obligations.ResponseAfterLatency : Prop :=
  ∀ (s : State) (i : Instr), s.accepts = some (.command i) → s.Ready i →
    (∀ p ∈ s.pins.take (s.cfg.latency + 1), p.rst = false) →
    (∀ k, k < s.cfg.latency →
      ∃ t, core.run (k + 1) s = .next t ∧ t.rsp = none ∧ t.reqReady = false) ∧
    ∃ t u, core.run (s.cfg.latency + 1) s = .next t ∧ exec i s.nextCycle = .next u ∧
      t.rsp = u.rsp ∧ t.reqReady = true ∧ u.SameEngine t

/-- 20_memory.md R56, R59 against R71: after any number of clock cycles the engine is what the operations it
took, one after the other and each whole, make of it. That this holds also while a command is in flight
is the model's choice of the moment of an access's effects, its acceptance (log entry 6). -/
def Obligations.CyclesRefineSequence : Prop :=
  ∀ (n : Nat) (s t : State), core.run n s = .next t →
    ∃ u hits, runTrace (s.acceptsIn n) s = .next (u, hits) ∧ u.SameEngine t

/-- R71 (the spec's decision D9; when `req_ready` is high again is log entry 6): without a reset, the
responses given, and the one still due, are the results of the commands accepted, each once and in
command order. -/
def Obligations.EveryCommandAnsweredOnceInOrder : Prop :=
  ∀ (n : Nat) (s t : State), core.run n s = .next t → (∀ p ∈ s.pins.take n, p.rst = false) →
    ∃ u hits, runTrace (s.acceptsIn n) s = .next (u, hits) ∧
      s.owed ++ hits = s.responsesIn n ++ t.owed

/-! ## Runs of accesses -/

/-- R124: two traces with the same addresses and different flags have the same hits and misses, the same
`MISS_CNT` and the same `valid`, `tag` and `lat` in every block. -/
def Obligations.FlagsDoNotInfluenceHits : Prop :=
  ∀ (s : State) (is js : List Instr), s.hasReset = true → (∀ i ∈ is, i.WellFormed s.cfg.aw) →
    js.map Instr.address = is.map Instr.address →
    ∃ t u hits, runTrace (commands is) s = .next (t, hits) ∧ runTrace (commands js) s = .next (u, hits) ∧
      u.clk = t.clk ∧ u.missCnt = t.missCnt ∧
      ∀ j, (u.block j).valid = (t.block j).valid ∧ (u.block j).tag = (t.block j).tag ∧
        (u.block j).lat = (t.block j).lat

/-- R131: an access, hit or miss, then any accesses to other sets, then an access to the same line, with
whatever flags: the last one hits. -/
def Obligations.SecondAccessHits : Prop :=
  ∀ (s : State) (i k : Instr) (is : List Instr), s.WF → s.Ready i → k.WellFormed s.cfg.aw →
    (∀ j ∈ is, j.WellFormed s.cfg.aw ∧
      (decomp s.cfg.toParams j.address).setIndex ≠ (decomp s.cfg.toParams i.address).setIndex) →
    decomp s.cfg.toParams k.address = decomp s.cfg.toParams i.address →
    ∃ t u hits, runTrace (commands (i :: is)) s = .next (t, hits) ∧
      hits.head? = some (decide (s.Hits i.address)) ∧ exec k t = .next u ∧ u.rsp = some true

/-- R132: in a single-set cache of `WAYS = k`, from reset, `k` accesses with distinct tags fill ways `0 .. k
- 1` with stamps `1 .. k`; one more evicts exactly the first line, in way 0; re-accessing the others in
order hits every time and evicts none. -/
def Obligations.LeastRecentlyUsedIsEvicted : Prop :=
  ∀ (cfg : Config) (i : Instr) (is : List Instr), cfg.mEff = 0 → is.length = cfg.ways →
    (∀ j ∈ i :: is, j.WellFormed cfg.aw) →
    ((i :: is).map fun j => (decomp cfg.toParams j.address).tag).Nodup →
    cfg.ways + 1 < 2 ^ cfg.cw →
    ∃ m t u, runTrace (commands ((i :: is).take cfg.ways)) (State.resetOf cfg) =
        .next (m, List.replicate cfg.ways false) ∧
      (∀ n j, n < cfg.ways → (i :: is)[n]? = some j →
        m.block n = ⟨true, j.isWrite, (decomp cfg.toParams j.address).tag, n + 1⟩) ∧
      runTrace (commands (i :: is)) (State.resetOf cfg) =
        .next (t, List.replicate (cfg.ways + 1) false) ∧
      (∀ n, n ≠ 0 → t.block n = m.block n) ∧
      ¬ t.Hits i.address ∧ (∀ j ∈ is, t.Hits j.address) ∧
      runTrace (commands is) t = .next (u, List.replicate cfg.ways true) ∧
      ∀ j ∈ is, u.Hits j.address

/-- R133: a block filled by a write access counts one writeback when a read and write access evicts it; one
filled by an access that is no write, and hit by no write since, counts none. -/
def Obligations.WritebackAccounting : Prop :=
  ∀ (s t u : State) (i k : Instr) (is : List Instr) (hits : List Bool) (w v : Nat), s.WF →
    s.IsAllocated i.address w → exec i s = .next t →
    RunAll (fun j r => ∀ x, r.IsAllocated j.address x → r.wayIndex j.address x ≠ s.wayIndex i.address w)
      is t →
    runTrace (commands is) t = .next (u, hits) →
    k.isRead = true → k.isWrite = true → u.Ready k → u.IsVictim k.address v →
    u.wayIndex k.address v = s.wayIndex i.address w →
    ∃ z, exec k u = .next z ∧
      (i.isWrite = true → z.wbCnt = (u.wbCnt + 1) % 2 ^ u.cfg.cw) ∧
      (i.isWrite = false →
        RunAll (fun j r => r.Matches j.address (s.wayIndex i.address w) → j.isWrite = false) is t →
        z.wbCnt = u.wbCnt)

/-- R134, R31: without a wrap the clock counts the accesses and the two counters never fall. -/
def Obligations.CountersAreMonotonic : Prop :=
  ∀ (s : State) (is : List Instr), s.hasReset = true → s.CounterOrder →
    (∀ i ∈ is, i.WellFormed s.cfg.aw) → s.clk + is.length < 2 ^ s.cfg.cw →
    ∃ t hits, runTrace (commands is) s = .next (t, hits) ∧ hits.length = is.length ∧
      t.clk = s.clk + is.length ∧ t.missCnt = s.missCnt + hits.countP (fun hit => !hit) ∧
      s.wbCnt ≤ t.wbCnt ∧ t.wbCnt ≤ s.wbCnt + hits.countP (fun hit => !hit) ∧ t.CounterOrder
end

