-- ==== Sys2Proof/Laws/BlockArray.lean ====
section
/-! SUPPORT. What the operations on the block array do, said once: reading a block of a set and of an array
written back, the first invalid block, the victim, and the addressed set lying inside the array. -/

namespace Sys2Proof.Machine

/-! ## Reading and writing back a set -/

theorem getD_setBlocks (ways base w : Nat) (blk : List Block) (h : w < ways) :
    (setBlocks ways base blk).getD w Block.unfilled = blk.getD (base + w) Block.unfilled := by
  simp [setBlocks, List.getD_eq_getElem?_getD, h]

theorem length_setBlocks (ways base : Nat) (blk : List Block) (h : base + ways ≤ blk.length) :
    (setBlocks ways base blk).length = ways := by
  simp [setBlocks]; omega

theorem length_writeSet (ways base : Nat) (set blk : List Block)
    (h : set.length = (setBlocks ways base blk).length) :
    (writeSet ways base set blk).length = blk.length := by
  simp [writeSet, setBlocks] at *; omega

/-- Every block of the array after a set was written back: those of the set are the new ones. -/
theorem getD_writeSet (ways base j : Nat) (set blk : List Block)
    (h : set.length = (setBlocks ways base blk).length) :
    (writeSet ways base set blk).getD j Block.unfilled =
      if base ≤ j ∧ j < base + ways then set.getD (j - base) Block.unfilled
      else blk.getD j Block.unfilled := by
  simp only [setBlocks, List.length_take, List.length_drop] at h
  simp only [writeSet, List.getD_eq_getElem?_getD]
  rcases Nat.lt_or_ge j base with hj | hj
  · rw [if_neg (by omega), List.append_assoc]
    rcases Nat.lt_or_ge j blk.length with hl | hl
    · rw [List.getElem?_append_left (by simp; omega), List.getElem?_take_of_lt hj]
    · rw [List.getElem?_eq_none (by simp; omega), List.getElem?_eq_none hl]
  · rcases Nat.lt_or_ge blk.length base with hb | hb
    · have : set = [] := List.eq_nil_of_length_eq_zero (by omega)
      subst this
      rw [List.getElem?_eq_none (by simp; omega)]
      split
      · simp
      · rw [List.getElem?_eq_none (by omega)]
    · rw [List.append_assoc, List.getElem?_append_right (by simp; omega)]
      have hlen : (blk.take base).length = base := by simp; omega
      rw [hlen]
      split
      · rename_i hin
        rcases Nat.lt_or_ge (j - base) set.length with hs | hs
        · rw [List.getElem?_append_left hs]
        · rw [List.getElem?_eq_none hs, List.getElem?_eq_none (by simp; omega)]
      · rename_i hout
        have hj' : base + ways ≤ j := by omega
        rcases Nat.lt_or_ge j blk.length with hl | hl
        · rw [List.getElem?_append_right (by omega), List.getElem?_drop]
          congr 2; omega
        · rw [List.getElem?_eq_none (by simp; omega), List.getElem?_eq_none hl]

/-! ## The first invalid block -/

theorem firstInvalid_some {set : List Block} {w : Nat} (h : firstInvalid set = some w) :
    w < set.length ∧ (set.getD w Block.unfilled).valid = false ∧
      ∀ x, x < w → (set.getD x Block.unfilled).valid = true := by
  obtain ⟨hw, hb, hx⟩ := List.findIdx?_eq_some_iff_getElem.1 h
  refine ⟨hw, ?_, fun x hxw => ?_⟩
  · simpa [List.getD_eq_getElem?_getD, hw] using hb
  · have := hx x hxw
    simpa [List.getD_eq_getElem?_getD, show x < set.length by omega] using this

theorem firstInvalid_none {set : List Block} (h : firstInvalid set = none) (x : Nat)
    (hx : x < set.length) : (set.getD x Block.unfilled).valid = true := by
  have := List.findIdx?_eq_none_iff.1 h (set[x]) (List.getElem_mem hx)
  simpa [List.getD_eq_getElem?_getD, hx] using this

/-! ## The victim -/

/-- The scan keeps a way that is oldest, lowest among equals, among those seen so far. -/
theorem victimScan_spec (pre rest : List Block) (v : Nat) (hv : v < pre.length)
    (hmin : ∀ x, x < pre.length → (pre.getD v Block.unfilled).lat ≤ (pre.getD x Block.unfilled).lat ∧
      (x < v → (pre.getD v Block.unfilled).lat < (pre.getD x Block.unfilled).lat)) :
    let r := victimScan pre.length v (pre.getD v Block.unfilled).lat rest
    r < (pre ++ rest).length ∧ ∀ x, x < (pre ++ rest).length →
      ((pre ++ rest).getD r Block.unfilled).lat ≤ ((pre ++ rest).getD x Block.unfilled).lat ∧
      (x < r → ((pre ++ rest).getD r Block.unfilled).lat < ((pre ++ rest).getD x Block.unfilled).lat) := by
  induction rest generalizing pre v with
  | nil => simpa [victimScan] using ⟨hv, hmin⟩
  | cons b bs ih =>
    have happ : pre ++ b :: bs = (pre ++ [b]) ++ bs := by simp
    have hlen : (pre ++ [b]).length = pre.length + 1 := by simp
    have hb : (pre ++ [b]).getD pre.length Block.unfilled = b := by
      simp [List.getD_eq_getElem?_getD]
    have hold : ∀ x, x < pre.length → (pre ++ [b]).getD x Block.unfilled = pre.getD x Block.unfilled := by
      intro x hx
      simp [List.getD_eq_getElem?_getD, List.getElem?_append_left hx]
    simp only [victimScan]
    rw [happ]
    split
    · rename_i hlt
      have := ih (pre ++ [b]) pre.length (by omega) (by
        intro x hx
        rw [hlen] at hx
        rw [hb]
        rcases Nat.lt_or_ge x pre.length with h | h
        · rw [hold x h]; have := (hmin x h).1; omega
        · have : x = pre.length := by omega
          subst this; rw [hb]; omega)
      rw [hlen, hb] at this
      exact this
    · rename_i hge
      have := ih (pre ++ [b]) v (by omega) (by
        intro x hx
        rw [hlen] at hx
        rw [hold v hv]
        rcases Nat.lt_or_ge x pre.length with h | h
        · rw [hold x h]; exact hmin x h
        · have : x = pre.length := by omega
          subst this; rw [hb]; omega)
      rw [hlen, hold v hv] at this
      exact this

/-- The victim is the way of the smallest stamp, the lowest among equals. -/
theorem victim_spec (set : List Block) (h : set ≠ []) :
    victim set < set.length ∧ ∀ x, x < set.length →
      (set.getD (victim set) Block.unfilled).lat ≤ (set.getD x Block.unfilled).lat ∧
      (x < victim set → (set.getD (victim set) Block.unfilled).lat < (set.getD x Block.unfilled).lat) := by
  cases set with
  | nil => exact absurd rfl h
  | cons b bs => exact victimScan_spec [b] bs 0 (by simp) (by simp)

/-! ## What an access does to its set -/

theorem length_accessSet (tag now : Nat) (r w : Bool) (set : List Block) :
    (accessSet tag now r w set).set.length = set.length := by
  unfold accessSet
  split
  · simp
  · split <;> simp

/-! ## The addressed set -/

theorem and_le_and_mask (x m k : Nat) (hx : x < 2 ^ k) : x &&& m ≤ m &&& (2 ^ k - 1) := by
  have : x &&& m = x &&& (m &&& (2 ^ k - 1)) := by
    rw [← Nat.and_assoc, Nat.and_two_pow_sub_one_eq_mod, Nat.mod_eq_of_lt]
    exact lt_of_le_of_lt Nat.and_le_left hx
  rw [this]
  exact Nat.and_le_right

theorem shiftRight_lt (a aw n : Nat) (hn : n < aw) (ha : a < 2 ^ aw) : a >>> n < 2 ^ (aw - n) := by
  rw [Nat.shiftRight_eq_div_pow]
  apply Nat.div_lt_of_lt_mul
  rwa [← pow_add, show n + (aw - n) = aw by omega]

/-- The set an address selects is one of those allocated. -/
theorem setIndex_lt_numSets (cfg : Config) (a : Nat) (ha : a < 2 ^ cfg.aw) :
    (decomp cfg.toParams a).setIndex < cfg.numSets := by
  obtain ⟨_, _, hw, _, hs, _, _, hb⟩ := cfg.valid
  have h1 : (decomp cfg.toParams a).setIndex ≤ cfg.mEff :=
    and_le_and_mask _ _ _ (shiftRight_lt a _ _ hs ha)
  have h2 : cfg.mEff + 1 ≤ cfg.numSets := (Nat.le_div_iff_mul_le hw).2 hb
  omega

theorem base_eq (p : Params) (a : Nat) :
    (decomp p a).base = (decomp p a).setIndex * p.ways := rfl

/-- Every allocated set lies inside the array. -/
theorem set_inside (cfg : Config) (k : Nat) (hk : k < cfg.numSets) :
    k * cfg.ways + cfg.ways ≤ cfg.totalBlocks := by
  have h : (k + 1) * cfg.ways ≤ cfg.numSets * cfg.ways := Nat.mul_le_mul_right _ hk
  have : cfg.numSets * cfg.ways ≤ cfg.totalBlocks := Nat.div_mul_le_self _ _
  rw [Nat.add_mul] at h; omega

theorem base_inside (cfg : Config) (a : Nat) (ha : a < 2 ^ cfg.aw) :
    (decomp cfg.toParams a).base + cfg.ways ≤ cfg.totalBlocks :=
  set_inside cfg _ (setIndex_lt_numSets cfg a ha)

end Sys2Proof.Machine
end

