-- ==== Sys2Proof/Laws/State.lean ====
section
/-! SUPPORT. One lemma per field per update of `State`, so that no later proof unfolds a record update. -/

namespace Sys2Proof.Machine

/-! `access` -/

@[simp] theorem State.access_cfg (s : State) (a : Nat) (r w : Bool) :
    (s.access a r w).cfg = s.cfg := rfl

@[simp] theorem State.access_blk (s : State) (a : Nat) (r w : Bool) :
    (s.access a r w).blk = writeSet s.cfg.ways (decomp s.cfg.toParams a).base (s.setOutcome a r w).set s.blk := rfl

@[simp] theorem State.access_clk (s : State) (a : Nat) (r w : Bool) :
    (s.access a r w).clk = increment s.cfg.cw s.clk := rfl

@[simp] theorem State.access_missCnt (s : State) (a : Nat) (r w : Bool) :
    (s.access a r w).missCnt = if (s.setOutcome a r w).hit then s.missCnt else increment s.cfg.cw s.missCnt := rfl

@[simp] theorem State.access_wbCnt (s : State) (a : Nat) (r w : Bool) :
    (s.access a r w).wbCnt = if (s.setOutcome a r w).writeback then increment s.cfg.cw s.wbCnt else s.wbCnt := rfl

@[simp] theorem State.access_hasReset (s : State) (a : Nat) (r w : Bool) :
    (s.access a r w).hasReset = s.hasReset := rfl

@[simp] theorem State.access_inFlight (s : State) (a : Nat) (r w : Bool) :
    (s.access a r w).inFlight = s.inFlight := rfl

@[simp] theorem State.access_rsp (s : State) (a : Nat) (r w : Bool) :
    (s.access a r w).rsp = some (s.setOutcome a r w).hit := rfl

@[simp] theorem State.access_pins (s : State) (a : Nat) (r w : Bool) :
    (s.access a r w).pins = s.pins := rfl

@[simp] theorem State.access_freeIdx (s : State) (a : Nat) (r w : Bool) :
    (s.access a r w).freeIdx = s.freeIdx := rfl

/-! `applyReset` -/

@[simp] theorem State.applyReset_cfg (s : State) :
    s.applyReset.cfg = s.cfg := rfl

@[simp] theorem State.applyReset_blk (s : State) :
    s.applyReset.blk = List.replicate s.cfg.totalBlocks Block.unfilled := rfl

@[simp] theorem State.applyReset_clk (s : State) :
    s.applyReset.clk = 0 := rfl

@[simp] theorem State.applyReset_missCnt (s : State) :
    s.applyReset.missCnt = 0 := rfl

@[simp] theorem State.applyReset_wbCnt (s : State) :
    s.applyReset.wbCnt = 0 := rfl

@[simp] theorem State.applyReset_hasReset (s : State) :
    s.applyReset.hasReset = true := rfl

@[simp] theorem State.applyReset_inFlight (s : State) :
    s.applyReset.inFlight = none := rfl

@[simp] theorem State.applyReset_rsp (s : State) :
    s.applyReset.rsp = none := rfl

@[simp] theorem State.applyReset_pins (s : State) :
    s.applyReset.pins = s.pins := rfl

@[simp] theorem State.applyReset_freeIdx (s : State) :
    s.applyReset.freeIdx = s.freeIdx := rfl

/-! `nextCycle` -/

@[simp] theorem State.nextCycle_cfg (s : State) :
    s.nextCycle.cfg = s.cfg := rfl

@[simp] theorem State.nextCycle_blk (s : State) :
    s.nextCycle.blk = s.blk := rfl

@[simp] theorem State.nextCycle_clk (s : State) :
    s.nextCycle.clk = s.clk := rfl

@[simp] theorem State.nextCycle_missCnt (s : State) :
    s.nextCycle.missCnt = s.missCnt := rfl

@[simp] theorem State.nextCycle_wbCnt (s : State) :
    s.nextCycle.wbCnt = s.wbCnt := rfl

@[simp] theorem State.nextCycle_hasReset (s : State) :
    s.nextCycle.hasReset = s.hasReset := rfl

@[simp] theorem State.nextCycle_inFlight (s : State) :
    s.nextCycle.inFlight = s.inFlight := rfl

@[simp] theorem State.nextCycle_rsp (s : State) :
    s.nextCycle.rsp = none := rfl

@[simp] theorem State.nextCycle_pins (s : State) :
    s.nextCycle.pins = s.pins.tail := rfl

@[simp] theorem State.nextCycle_freeIdx (s : State) :
    s.nextCycle.freeIdx = s.freeIdx + 1 := rfl

/-! `launch` -/

@[simp] theorem State.launch_cfg (s : State) :
    s.launch.cfg = s.cfg := by
  unfold State.launch; split <;> rfl

@[simp] theorem State.launch_blk (s : State) :
    s.launch.blk = s.blk := by
  unfold State.launch; split <;> rfl

@[simp] theorem State.launch_clk (s : State) :
    s.launch.clk = s.clk := by
  unfold State.launch; split <;> rfl

@[simp] theorem State.launch_missCnt (s : State) :
    s.launch.missCnt = s.missCnt := by
  unfold State.launch; split <;> rfl

@[simp] theorem State.launch_wbCnt (s : State) :
    s.launch.wbCnt = s.wbCnt := by
  unfold State.launch; split <;> rfl

@[simp] theorem State.launch_hasReset (s : State) :
    s.launch.hasReset = s.hasReset := by
  unfold State.launch; split <;> rfl

@[simp] theorem State.launch_inFlight (s : State) :
    s.launch.inFlight = if s.cfg.latency = 0 then s.inFlight else s.rsp.map fun hit => ⟨hit, s.cfg.latency⟩ := by
  unfold State.launch; split <;> rfl

@[simp] theorem State.launch_rsp (s : State) :
    s.launch.rsp = if s.cfg.latency = 0 then s.rsp else none := by
  unfold State.launch; split <;> rfl

@[simp] theorem State.launch_pins (s : State) :
    s.launch.pins = s.pins := by
  unfold State.launch; split <;> rfl

@[simp] theorem State.launch_freeIdx (s : State) :
    s.launch.freeIdx = s.freeIdx := by
  unfold State.launch; split <;> rfl

/-! `countDown` -/

@[simp] theorem State.countDown_cfg (f : InFlight) (s : State) :
    (s.countDown f).cfg = s.cfg := by
  unfold State.countDown; split <;> rfl

@[simp] theorem State.countDown_blk (f : InFlight) (s : State) :
    (s.countDown f).blk = s.blk := by
  unfold State.countDown; split <;> rfl

@[simp] theorem State.countDown_clk (f : InFlight) (s : State) :
    (s.countDown f).clk = s.clk := by
  unfold State.countDown; split <;> rfl

@[simp] theorem State.countDown_missCnt (f : InFlight) (s : State) :
    (s.countDown f).missCnt = s.missCnt := by
  unfold State.countDown; split <;> rfl

@[simp] theorem State.countDown_wbCnt (f : InFlight) (s : State) :
    (s.countDown f).wbCnt = s.wbCnt := by
  unfold State.countDown; split <;> rfl

@[simp] theorem State.countDown_hasReset (f : InFlight) (s : State) :
    (s.countDown f).hasReset = s.hasReset := by
  unfold State.countDown; split <;> rfl

@[simp] theorem State.countDown_inFlight (f : InFlight) (s : State) :
    (s.countDown f).inFlight = if f.left ≤ 1 then none else some ⟨f.hit, f.left - 1⟩ := by
  unfold State.countDown; split <;> rfl

@[simp] theorem State.countDown_rsp (f : InFlight) (s : State) :
    (s.countDown f).rsp = if f.left ≤ 1 then some f.hit else s.rsp := by
  unfold State.countDown; split <;> rfl

@[simp] theorem State.countDown_pins (f : InFlight) (s : State) :
    (s.countDown f).pins = s.pins := by
  unfold State.countDown; split <;> rfl

@[simp] theorem State.countDown_freeIdx (f : InFlight) (s : State) :
    (s.countDown f).freeIdx = s.freeIdx := by
  unfold State.countDown; split <;> rfl

/-! `resetOf` -/

@[simp] theorem State.resetOf_cfg (cfg : Config) :
    (State.resetOf cfg).cfg = cfg := rfl

@[simp] theorem State.resetOf_blk (cfg : Config) :
    (State.resetOf cfg).blk = List.replicate cfg.totalBlocks Block.unfilled := rfl

@[simp] theorem State.resetOf_clk (cfg : Config) :
    (State.resetOf cfg).clk = 0 := rfl

@[simp] theorem State.resetOf_missCnt (cfg : Config) :
    (State.resetOf cfg).missCnt = 0 := rfl

@[simp] theorem State.resetOf_wbCnt (cfg : Config) :
    (State.resetOf cfg).wbCnt = 0 := rfl

@[simp] theorem State.resetOf_hasReset (cfg : Config) :
    (State.resetOf cfg).hasReset = true := rfl

@[simp] theorem State.resetOf_inFlight (cfg : Config) :
    (State.resetOf cfg).inFlight = none := rfl

@[simp] theorem State.resetOf_rsp (cfg : Config) :
    (State.resetOf cfg).rsp = none := rfl

@[simp] theorem State.resetOf_pins (cfg : Config) :
    (State.resetOf cfg).pins = [] := rfl

@[simp] theorem State.resetOf_freeIdx (cfg : Config) :
    (State.resetOf cfg).freeIdx = 0 := rfl

end Sys2Proof.Machine
end

