-- ==== Sys2Proof/Laws/Access.lean ====
section
/-! SUPPORT. What an access can do, block by block: one lemma for a hit, one for a miss, one that holds in
every state; and when a command answers. -/

namespace Sys2Proof.Machine

/-! ## Blocks of the addressed set -/

theorem State.wayIndex_eq (s : State) (a w : Nat) :
    s.wayIndex a w = (decomp s.cfg.toParams a).base + w := rfl

theorem State.inSet_wayIndex (s : State) (a w : Nat) (hw : w < s.cfg.ways) :
    s.InSet a (s.wayIndex a w) := by
  simp only [State.InSet, State.wayIndex]; omega

theorem State.inSet_iff (s : State) (a j : Nat) :
    s.InSet a j ↔ ∃ w, w < s.cfg.ways ∧ j = s.wayIndex a w := by
  simp only [State.InSet, State.wayIndex]
  constructor
  · intro ⟨h1, h2⟩
    exact ⟨j - (decomp s.cfg.toParams a).base, by omega, by omega⟩
  · rintro ⟨w, h, rfl⟩; omega

theorem State.setBlocks_getD (s : State) (a w : Nat) (hw : w < s.cfg.ways) :
    (setBlocks s.cfg.ways (decomp s.cfg.toParams a).base s.blk).getD w Block.unfilled =
      s.block (s.wayIndex a w) :=
  getD_setBlocks _ _ _ _ hw

theorem isMatch_iff (tag : Nat) (b : Block) : b.isMatch tag = true ↔ b.valid = true ∧ b.tag = tag := by
  simp [Block.isMatch]

/-- The hit decision of the machine is the hit of 41_access.md R105. -/
theorem State.any_isMatch (s : State) (a : Nat) :
    (setBlocks s.cfg.ways (decomp s.cfg.toParams a).base s.blk).any
      (Block.isMatch (decomp s.cfg.toParams a).tag) = true ↔ s.Hits a := by
  rw [List.any_eq_true]
  constructor
  · rintro ⟨b, hb, hm⟩
    obtain ⟨w, hw, rfl⟩ := List.getElem_of_mem hb
    have hlt : w < s.cfg.ways := by simp [setBlocks] at hw; omega
    refine ⟨w, hlt, s.inSet_wayIndex a w hlt, ?_⟩
    rw [← s.setBlocks_getD a w hlt]
    simpa [List.getD_eq_getElem?_getD, hw, isMatch_iff] using hm
  · rintro ⟨w, hlt, -, hm⟩
    rw [← isMatch_iff, ← s.setBlocks_getD a w hlt] at hm
    by_cases hw : w < (setBlocks s.cfg.ways (decomp s.cfg.toParams a).base s.blk).length
    · refine ⟨_, List.getElem_mem hw, ?_⟩
      simpa [List.getD_eq_getElem?_getD, hw] using hm
    · rw [List.getD_eq_getElem?_getD, List.getElem?_eq_none (by omega)] at hm
      simp [Block.isMatch, Block.unfilled] at hm

/-- Every block after an access: those outside the set as before, those inside from the set's outcome. -/
theorem State.access_block (s : State) (a : Nat) (r w : Bool) (j : Nat) :
    (s.access a r w).block j =
      if s.InSet a j then
        (s.setOutcome a r w).set.getD (j - (decomp s.cfg.toParams a).base) Block.unfilled
      else s.block j := by
  rw [State.block, State.access_blk]
  exact getD_writeSet _ _ _ _ _ (length_accessSet _ _ _ _ _)

/-! ## A hit -/

theorem State.setOutcome_of_hit {s : State} {a : Nat} (h : s.Hits a) (r w : Bool) :
    s.setOutcome a r w =
      ⟨(setBlocks s.cfg.ways (decomp s.cfg.toParams a).base s.blk).map
        (Block.hitUpdate (decomp s.cfg.toParams a).tag (increment s.cfg.cw s.clk) w), true, false⟩ := by
  simp only [State.setOutcome, accessSet]
  rw [if_pos ((s.any_isMatch a).2 h)]

/-- Every block after a hit (R104). -/
theorem State.access_block_of_hit {s : State} {a : Nat} (h : s.Hits a) (r w : Bool) (j : Nat) :
    (s.access a r w).block j =
      if s.Matches a j then (s.block j).stamp (increment s.cfg.cw s.clk) w else s.block j := by
  rw [s.access_block, s.setOutcome_of_hit h]
  by_cases hj : s.InSet a j
  · rw [if_pos hj]
    obtain ⟨x, hx, rfl⟩ := (s.inSet_iff a j).1 hj
    have hsub : s.wayIndex a x - (decomp s.cfg.toParams a).base = x := by
      simp [State.wayIndex]
    have hmap : ∀ (f : Block → Block) (l : List Block), f Block.unfilled = Block.unfilled →
        (l.map f).getD x Block.unfilled = f (l.getD x Block.unfilled) := by
      intro f l hf
      rw [List.getD_eq_getElem?_getD, List.getD_eq_getElem?_getD, List.getElem?_map]
      cases l[x]? <;> simp [hf]
    rw [hsub]
    simp only
    rw [hmap _ _ (by simp [Block.hitUpdate, Block.isMatch, Block.unfilled]), s.setBlocks_getD a x hx]
    have hmatch : s.Matches a (s.wayIndex a x) ↔
        (s.block (s.wayIndex a x)).isMatch (decomp s.cfg.toParams a).tag = true := by
      rw [isMatch_iff]; exact and_iff_right hj
    rw [Block.hitUpdate, if_congr hmatch rfl rfl]
  · rw [if_neg hj, if_neg (fun hm => hj hm.1)]

/-! ## A miss -/

/-- On a miss one way of the set is filled, and which one does not depend on the flags (R107, R108). -/
theorem State.setOutcome_of_miss {s : State} {a : Nat} (h : ¬ s.Hits a) :
    ∃ x, ∀ r w, (s.setOutcome a r w).hit = false ∧
      (s.setOutcome a r w).set =
        (setBlocks s.cfg.ways (decomp s.cfg.toParams a).base s.blk).set x
          (Block.filled (decomp s.cfg.toParams a).tag (increment s.cfg.cw s.clk) w) := by
  have hno : ¬ (setBlocks s.cfg.ways (decomp s.cfg.toParams a).base s.blk).any
      (Block.isMatch (decomp s.cfg.toParams a).tag) = true := fun hc => h ((s.any_isMatch a).1 hc)
  simp only [State.setOutcome, accessSet, if_neg hno]
  cases firstInvalid (setBlocks s.cfg.ways (decomp s.cfg.toParams a).base s.blk) with
  | some x => exact ⟨x, fun r w => ⟨rfl, rfl⟩⟩
  | none => exact ⟨_, fun r w => ⟨rfl, rfl⟩⟩

/-- The result of an access is whether it hits (R105). -/
theorem State.setOutcome_hit (s : State) (a : Nat) (r w : Bool) :
    (s.setOutcome a r w).hit = decide (s.Hits a) := by
  by_cases h : s.Hits a
  · rw [s.setOutcome_of_hit h]; simp only [h, decide_true]
  · obtain ⟨x, hx⟩ := State.setOutcome_of_miss h
    rw [(hx r w).1]; simp only [h, decide_false]

/-- The two counters and the response after an access, as the rules state them. -/
theorem State.access_missCnt_eq (s : State) (a : Nat) (r w : Bool) :
    (s.access a r w).missCnt = if s.Hits a then s.missCnt else (s.missCnt + 1) % 2 ^ s.cfg.cw := by
  rw [State.access_missCnt, State.setOutcome_hit]
  by_cases h : s.Hits a
  · rw [if_pos h, if_pos (by simpa using h)]
  · rw [if_neg h, if_neg (by simpa using h)]; rfl

theorem State.access_wbCnt_of_hit {s : State} {a : Nat} (h : s.Hits a) (r w : Bool) :
    (s.access a r w).wbCnt = s.wbCnt := by
  rw [State.access_wbCnt, s.setOutcome_of_hit h]; rfl

theorem State.access_rsp_eq (s : State) (a : Nat) (r w : Bool) :
    (s.access a r w).rsp = some (decide (s.Hits a)) := by
  rw [State.access_rsp, State.setOutcome_hit]

/-- What a miss does, in a state whose array has its blocks: it writes the block of one way, which is the
first invalid one or the victim (R106 to R109). -/
theorem State.access_of_miss {s : State} {a : Nat} (hlen : s.blk.length = s.cfg.totalBlocks)
    (ha : a < 2 ^ s.cfg.aw) (h : ¬ s.Hits a) (r w : Bool) :
    (s.setOutcome a r w).hit = false ∧
    ∃ x, s.IsAllocated a x ∧
      ((s.setOutcome a r w).writeback = true ↔
        r = true ∧ w = true ∧ s.SetFull a ∧ (s.block (s.wayIndex a x)).dirty = true) ∧
      ∀ j, (s.access a r w).block j =
        if j = s.wayIndex a x then
          Block.filled (decomp s.cfg.toParams a).tag (increment s.cfg.cw s.clk) w
        else s.block j := by
  have hin := base_inside s.cfg a ha
  have hsl := length_setBlocks s.cfg.ways (decomp s.cfg.toParams a).base s.blk (by omega)
  have hpos : 1 ≤ s.cfg.ways := s.cfg.valid.2.2.1
  -- writing way `x` of the set writes block `wayIndex a x` of the array
  have hblk : ∀ x b, x < s.cfg.ways →
      (s.setOutcome a r w).set =
        (setBlocks s.cfg.ways (decomp s.cfg.toParams a).base s.blk).set x b →
      ∀ j, (s.access a r w).block j = if j = s.wayIndex a x then b else s.block j := by
    intro x b hx hset j
    rw [s.access_block, hset]
    by_cases hj : s.InSet a j
    · rw [if_pos hj]
      obtain ⟨y, hy, rfl⟩ := (s.inSet_iff a j).1 hj
      have hsub : s.wayIndex a y - (decomp s.cfg.toParams a).base = y := by simp [State.wayIndex]
      rw [hsub, List.getD_eq_getElem?_getD, List.getElem?_set, ← s.setBlocks_getD a y hy,
        List.getD_eq_getElem?_getD]
      by_cases hxy : x = y
      · subst hxy; simp [hsl, hx]
      · simp [hxy, State.wayIndex, Ne.symm hxy]
    · rw [if_neg hj, if_neg (by rintro rfl; exact hj (s.inSet_wayIndex a x hx))]
  have hout : s.setOutcome a r w = accessSet (decomp s.cfg.toParams a).tag
      (increment s.cfg.cw s.clk) r w
      (setBlocks s.cfg.ways (decomp s.cfg.toParams a).base s.blk) := rfl
  have hno : ¬ (setBlocks s.cfg.ways (decomp s.cfg.toParams a).base s.blk).any
      (Block.isMatch (decomp s.cfg.toParams a).tag) = true := fun hc => h ((s.any_isMatch a).1 hc)
  cases hf : firstInvalid (setBlocks s.cfg.ways (decomp s.cfg.toParams a).base s.blk) with
  | some x =>
    obtain ⟨hx, hinv, hbefore⟩ := firstInvalid_some hf
    rw [hsl] at hx
    rw [s.setBlocks_getD a x hx] at hinv
    have hval : s.setOutcome a r w =
        ⟨(setBlocks s.cfg.ways (decomp s.cfg.toParams a).base s.blk).set x
          (Block.filled (decomp s.cfg.toParams a).tag (increment s.cfg.cw s.clk) w), false, false⟩ := by
      rw [hout, accessSet, if_neg hno, hf]
    refine ⟨by rw [hval], x, ⟨h, Or.inl ⟨hx, hinv, fun y hy => ?_⟩⟩, ?_, hblk x _ hx (by rw [hval])⟩
    · rw [← s.setBlocks_getD a y (by omega)]; exact hbefore y hy
    · rw [hval]
      constructor
      · intro hc; exact absurd hc (by simp)
      · rintro ⟨-, -, hfull, -⟩; rw [hfull x hx] at hinv; exact absurd hinv (by simp)
  | none =>
    have hfull : s.SetFull a := fun y hy => by
      rw [← s.setBlocks_getD a y hy]; exact firstInvalid_none hf y (by omega)
    obtain ⟨hv, hmin⟩ := victim_spec (setBlocks s.cfg.ways (decomp s.cfg.toParams a).base s.blk)
      (by intro hc; rw [hc] at hsl; simp at hsl; omega)
    rw [hsl] at hv
    have hval : s.setOutcome a r w =
        ⟨(setBlocks s.cfg.ways (decomp s.cfg.toParams a).base s.blk).set
            (victim (setBlocks s.cfg.ways (decomp s.cfg.toParams a).base s.blk))
            (Block.filled (decomp s.cfg.toParams a).tag (increment s.cfg.cw s.clk) w), false,
          countsWriteback r w ((setBlocks s.cfg.ways (decomp s.cfg.toParams a).base s.blk).getD
            (victim (setBlocks s.cfg.ways (decomp s.cfg.toParams a).base s.blk)) Block.unfilled)⟩ := by
      rw [hout, accessSet, if_neg hno, hf]
    refine ⟨by rw [hval], _, ⟨h, Or.inr ⟨hfull, hv, fun y hy => ?_⟩⟩, ?_, hblk _ _ hv (by rw [hval])⟩
    · rw [← s.setBlocks_getD a _ hv, ← s.setBlocks_getD a y hy]
      exact hmin y (by omega)
    · rw [hval, s.setBlocks_getD a _ hv]
      simp only [countsWriteback, Bool.and_eq_true]
      tauto

/-- The way a miss writes is one way. -/
theorem State.isAllocated_unique {s : State} {a x y : Nat} (hx : s.IsAllocated a x)
    (hy : s.IsAllocated a y) : x = y := by
  obtain ⟨-, hx⟩ := hx
  obtain ⟨-, hy⟩ := hy
  rcases hx with ⟨hxw, hxi, hxb⟩ | ⟨hfull, hxw, hxm⟩
  · rcases hy with ⟨hyw, hyi, hyb⟩ | ⟨hfull, -⟩
    · rcases Nat.lt_trichotomy x y with hlt | heq | hlt
      · rw [hyb x hlt] at hxi; exact absurd hxi (by simp)
      · exact heq
      · rw [hxb y hlt] at hyi; exact absurd hyi (by simp)
    · rw [hfull x hxw] at hxi; exact absurd hxi (by simp)
  · rcases hy with ⟨hyw, hyi, -⟩ | ⟨-, hyw, hym⟩
    · rw [hfull y hyw] at hyi; exact absurd hyi (by simp)
    · have h1 := hxm y hyw
      have h2 := hym x hxw
      rcases Nat.lt_trichotomy x y with hlt | heq | hlt
      · have := h2.2 hlt; omega
      · exact heq
      · have := h1.2 hlt; omega

theorem State.isAllocated_lt {s : State} {a x : Nat} (h : s.IsAllocated a x) : x < s.cfg.ways := by
  rcases h with ⟨-, ⟨h, -⟩ | ⟨-, h, -⟩⟩ <;> exact h

/-- The block a miss writes does not match: it is invalid or holds another tag. -/
theorem State.not_matches_of_not_hits {s : State} {a : Nat} (h : ¬ s.Hits a) (j : Nat) :
    ¬ s.Matches a j := by
  intro hm
  obtain ⟨w, hw, rfl⟩ := (s.inSet_iff a j).1 hm.1
  exact h ⟨w, hw, hm⟩

/-! ## Any access, in any state -/

/-- In every state, whatever its array: each block after an access is the block before, or a block of the
addressed set that was valid and is stamped, or a block of that set that is filled. -/
theorem State.access_block_cases (s : State) (a : Nat) (r w : Bool) (j : Nat) :
    (s.access a r w).block j = s.block j ∨
    (s.InSet a j ∧
      ((s.access a r w).block j = (s.block j).stamp (increment s.cfg.cw s.clk) w ∧
          (s.block j).valid = true ∨
        (s.access a r w).block j =
          Block.filled (decomp s.cfg.toParams a).tag (increment s.cfg.cw s.clk) w)) := by
  by_cases h : s.Hits a
  · rw [s.access_block_of_hit h]
    split
    · rename_i hm; exact Or.inr ⟨hm.1, Or.inl ⟨rfl, hm.2.1⟩⟩
    · exact Or.inl rfl
  · by_cases hj : s.InSet a j
    · obtain ⟨x, hx⟩ := State.setOutcome_of_miss h
      have hset := (hx r w).2
      obtain ⟨y, hy, rfl⟩ := (s.inSet_iff a j).1 hj
      have hsub : s.wayIndex a y - (decomp s.cfg.toParams a).base = y := by simp [State.wayIndex]
      rw [s.access_block, if_pos hj, hset, hsub, ← s.setBlocks_getD a y hy]
      simp only [List.getD_eq_getElem?_getD, List.getElem?_set]
      split
      · rename_i hxy
        split
        · exact Or.inr ⟨hj, Or.inr rfl⟩
        · rename_i hl
          rw [List.getElem?_eq_none (by omega)]
          exact Or.inl rfl
      · exact Or.inl rfl
    · rw [s.access_block, if_neg hj]; exact Or.inl rfl

/-! ## When a command answers -/

/-- The meaning all commands share answers the access exactly when the engine was reset and the address
fits. -/
theorem accessCommand_next {s t : State} {a : Nat} {r w : Bool} :
    accessCommand a r w s = .next t ↔
      s.hasReset = true ∧ a < 2 ^ s.cfg.aw ∧ t = s.access a r w := by
  unfold accessCommand
  split
  · split
    · rename_i h1 h2
      simp only [h1, h2, true_and, Host.Outcome.next.injEq]
      exact eq_comm
    · rename_i h2; simp [h2]
  · rename_i h1; simp [h1]

/-- Every command is `accessCommand` with its own flags. -/
theorem exec_eq (i : Instr) (s : State) :
    exec i s = accessCommand i.address i.isRead i.isWrite s := by
  cases i <;> rfl

/-- What a command can answer (inversion of `exec`). -/
theorem exec_next {i : Instr} {s t : State} :
    exec i s = .next t ↔ s.Ready i ∧ t = s.access i.address i.isRead i.isWrite := by
  rw [exec_eq, accessCommand_next]; exact and_assoc.symm

/-- A ready command completes. -/
theorem exec_of_ready {i : Instr} {s : State} (h : s.Ready i) :
    exec i s = .next (s.access i.address i.isRead i.isWrite) := exec_next.2 ⟨h, rfl⟩

theorem State.access_length (s : State) (a : Nat) (r w : Bool) :
    (s.access a r w).blk.length = s.blk.length := by
  rw [State.access_blk]
  exact length_writeSet _ _ _ _ (length_accessSet _ _ _ _ _)

/-! ## Places in the array -/

theorem index_div_mod (cfg : Config) (k w : Nat) (hw : w < cfg.ways) :
    (k * cfg.ways + w) / cfg.ways = k ∧ (k * cfg.ways + w) % cfg.ways = w := by
  have hp : 0 < cfg.ways := by omega
  constructor
  · rw [Nat.mul_comm, Nat.mul_add_div hp, Nat.div_eq_of_lt hw]; rfl
  · rw [Nat.mul_comm, Nat.mul_add_mod, Nat.mod_eq_of_lt hw]

/-- A block of the array is one way of one set. -/
theorem index_inj (cfg : Config) {k l v w : Nat} (hv : v < cfg.ways) (hw : w < cfg.ways)
    (h : k * cfg.ways + v = l * cfg.ways + w) : k = l ∧ v = w := by
  have h1 := index_div_mod cfg k v hv
  have h2 := index_div_mod cfg l w hw
  rw [h] at h1
  exact ⟨h1.1.symm.trans h2.1, h1.2.symm.trans h2.2⟩

theorem State.wayIndex_set (s : State) (a x : Nat) :
    s.wayIndex a x = (decomp s.cfg.toParams a).setIndex * s.cfg.ways + x := rfl

/-- Where no tag is held twice, at most one block matches. -/
theorem State.matches_unique {s : State} (hn : s.NoDuplicateTags) {a : Nat} (ha : a < 2 ^ s.cfg.aw)
    {i j : Nat} (hi : s.Matches a i) (hj : s.Matches a j) : i = j := by
  obtain ⟨u, hu, rfl⟩ := (s.inSet_iff a i).1 hi.1
  obtain ⟨v, hv, rfl⟩ := (s.inSet_iff a j).1 hj.1
  have := hn _ (setIndex_lt_numSets s.cfg a ha) u hu v hv hi.2.1 hj.2.1 (hi.2.2.trans hj.2.2.symm)
  rw [this]

/-! ## What an access leaves for the next one -/

theorem increment_lt (cw x : Nat) : increment cw x < 2 ^ cw := Nat.mod_lt _ (by positivity)

theorem State.increment_of_noWrap {s : State} (h : s.NoWrap) :
    increment s.cfg.cw s.clk = s.clk + 1 :=
  Nat.mod_eq_of_lt (by simp only [State.NoWrap] at h; omega)

/-- Whether an address hits depends on its line alone (40_address_decomposer.md R95). -/
theorem State.hits_congr (s : State) {a b : Nat}
    (h : decomp s.cfg.toParams a = decomp s.cfg.toParams b) : s.Hits a ↔ s.Hits b := by
  simp only [State.Hits, State.Matches, State.InSet, State.wayIndex]
  rw [h]

/-- After an access its line is present. -/
theorem State.hits_access {s : State} (hlen : s.blk.length = s.cfg.totalBlocks) {a : Nat}
    (ha : a < 2 ^ s.cfg.aw) (r w : Bool) : (s.access a r w).Hits a := by
  by_cases h : s.Hits a
  · obtain ⟨x, hx, hm⟩ := h
    have hb := State.access_block_of_hit ⟨x, hx, hm⟩ r w
    refine ⟨x, hx, hm.1, ?_⟩
    change ((s.access a r w).block (s.wayIndex a x)).valid = true ∧
      ((s.access a r w).block (s.wayIndex a x)).tag = _
    rw [hb, if_pos hm]
    exact ⟨hm.2.1, hm.2.2⟩
  · obtain ⟨-, x, hx, -, hb⟩ := State.access_of_miss hlen ha h r w
    have hxw : x < s.cfg.ways := State.isAllocated_lt hx
    refine ⟨x, hxw, s.inSet_wayIndex _ _ hxw, ?_⟩
    change ((s.access a r w).block (s.wayIndex a x)).valid = true ∧
      ((s.access a r w).block (s.wayIndex a x)).tag = _
    rw [hb, if_pos rfl]
    exact ⟨rfl, rfl⟩

/-- An access leaves the blocks of every other set. -/
theorem State.access_block_of_not_inSet {s : State} {a j : Nat} (h : ¬ s.InSet a j) (r w : Bool) :
    (s.access a r w).block j = s.block j := by
  rw [s.access_block, if_neg h]

end Sys2Proof.Machine
end

