-- ==== Sys2Proof/Laws/PerInstr.lean ====
section
/-! SUPPORT. What holds of every command as syntax: its word has its row's two low bits and its address
above them (30_encoding.md R72). -/

namespace Sys2Proof.Laws.WordFields

/-- The word of `i` is the address followed by the two flag bits of its row, and belongs to an engine
exactly when `i` does. -/
def Statement (i : Instr) : Prop :=
  addrField (encode i) = i.address ∧ (encode i).testBit 1 = i.isRead ∧ (encode i).testBit 0 = i.isWrite ∧
    ∀ aw, encode i < 2 ^ (aw + 2) ↔ i.WellFormed aw

theorem word_fields (i : Instr) (f : Nat) (hf : f < 4) (he : encode i = i.address * 4 + f)
    (hr : f.testBit 1 = i.isRead) (hw : f.testBit 0 = i.isWrite) : Statement i := by
  have hb : ∀ k, k < 2 → (i.address * 4 + f).testBit k = f.testBit k := fun k hk => by
    have h := Nat.testBit_two_pow_mul_add (a := i.address) (i := 2) (b := f) hf k
    rw [if_pos hk, Nat.mul_comm] at h
    exact h
  refine ⟨?_, ?_, ?_, fun aw => ?_⟩
  · rw [he, addrField, Nat.shiftRight_eq_div_pow]; omega
  · rw [he, hb 1 (by omega), hr]
  · rw [he, hb 0 (by omega), hw]
  · rw [he, pow_add, Instr.WellFormed, Word.Fits]; omega

theorem accN (a : Nat) : Statement (.accN a) :=
  word_fields _ 0 (by omega) (by simp [encode, commandWord, concat, bit, Instr.address, Instr.isRead, Instr.isWrite]; omega) rfl rfl

theorem accW (a : Nat) : Statement (.accW a) :=
  word_fields _ 1 (by omega) (by simp [encode, commandWord, concat, bit, Instr.address, Instr.isRead, Instr.isWrite]; omega) rfl rfl

theorem accR (a : Nat) : Statement (.accR a) :=
  word_fields _ 2 (by omega) (by simp [encode, commandWord, concat, bit, Instr.address, Instr.isRead, Instr.isWrite]; omega) rfl rfl

theorem accRW (a : Nat) : Statement (.accRW a) :=
  word_fields _ 3 (by omega) (by simp [encode, commandWord, concat, bit, Instr.address, Instr.isRead, Instr.isWrite]; omega) rfl rfl

end Sys2Proof.Laws.WordFields
end

