-- ==== Sys2Proof/Laws/Step.lean ====
section
/-! SUPPORT. What a clock cycle can do: one inversion lemma for `step`, and the decoding of the pins. -/

namespace Sys2Proof.Machine

/-- `ADDR` and the flags of a command word, read back (30_encoding.md R72). -/
theorem commandWord_fields (a : Nat) (r w : Bool) :
    addrField (commandWord a r w) = a ∧ commandWord a r w % 4 = r.toNat * 2 + w.toNat ∧
      ∀ n, commandWord a r w < 2 ^ (n + 2) ↔ a < 2 ^ n := by
  have h : commandWord a r w = a * 4 + (r.toNat * 2 + w.toNat) := by
    cases r <;> cases w <;> simp [commandWord, concat, bit] <;> omega
  have hb : r.toNat * 2 + w.toNat < 4 := by cases r <;> cases w <;> simp
  refine ⟨?_, ?_, fun n => ?_⟩
  · rw [addrField, Nat.shiftRight_eq_div_pow, h]; omega
  · rw [h]; omega
  · rw [h, pow_add]; omega

/-- The decoder by the two low bits (30_encoding.md R72). -/
theorem decode_eq (aw c : Nat) : decode aw c =
    if c < 2 ^ (aw + 2) then
      .ok (match c % 4 with
        | 0 => .accN (c / 4)
        | 1 => .accW (c / 4)
        | 2 => .accR (c / 4)
        | _ => .accRW (c / 4))
    else .error .wordTooWide := by
  have h3 : c &&& 3 = c % 4 := Nat.and_two_pow_sub_one_eq_mod c 2
  have hd : addrField c = c / 4 := by simp [addrField, Nat.shiftRight_eq_div_pow]
  unfold decode
  split
  · have : c % 4 < 4 := Nat.mod_lt _ (by omega)
    simp only [commandTable, List.find?, h3, hd]
    generalize c % 4 = x at *
    interval_cases x <;> rfl
  · rfl

/-- The pins' word decodes to the pins' command. -/
theorem decode_word (aw : Nat) (p : Pins) : decode aw p.word =
    if p.reqAddr < 2 ^ aw then .ok p.command else .error .wordTooWide := by
  obtain ⟨ha, hm, hlt⟩ := commandWord_fields p.reqAddr p.reqRd p.reqWr
  rw [decode_eq]
  simp only [Pins.word, hlt]
  have hd : commandWord p.reqAddr p.reqRd p.reqWr / 4 = p.reqAddr := by
    have h : ∀ c, addrField c = c / 4 := fun c => by simp [addrField, Nat.shiftRight_eq_div_pow]
    exact (h _).symm.trans ha
  rw [hm, hd]
  cases hr : p.reqRd <;> cases hw : p.reqWr <;> simp [Pins.command, hr, hw]

theorem Pins.command_address (p : Pins) : p.command.address = p.reqAddr := by
  unfold Pins.command; split <;> rfl

/-- An accepted command: executed, its response due `LATENCY` cycles later. -/
theorem acceptCommand_next {p : Pins} {s t : State} (h : acceptCommand p.word s = .next t) :
    s.Ready p.command ∧
      t = (s.access p.command.address p.command.isRead p.command.isWrite).launch := by
  unfold acceptCommand at h
  rw [decode_word] at h
  split at h
  · exact absurd h (by simp)
  · rename_i i hi
    split at hi
    · cases hi
      split at h
      · rename_i u hu
        obtain ⟨hr, rfl⟩ := exec_next.1 hu
        cases h
        exact ⟨hr, rfl⟩
      · exact absurd h (by simp)
      · exact absurd h (by simp)
    · exact absurd hi (by simp)

/-- Everything a clock cycle that answers can be: a reset, a cycle of a command in flight, an accepted
command, or a cycle without one. -/
theorem step_cases {s t : State} (h : step s = .next t) :
    (s.accepts = some .reset ∧ t = s.nextCycle.applyReset) ∨
    (∃ f, s.inFlight = some f ∧ s.accepts = none ∧ s.currentPins.rst = false ∧
      t = s.nextCycle.countDown f) ∨
    (∃ i, i = s.currentPins.command ∧ s.inFlight = none ∧ s.accepts = some (.command i) ∧
      s.currentPins.rst = false ∧ s.Ready i ∧
      t = (s.nextCycle.access i.address i.isRead i.isWrite).launch) ∨
    (s.inFlight = none ∧ s.accepts = none ∧ s.currentPins.rst = false ∧ t = s.nextCycle) := by
  unfold step cycle at h
  split at h
  · rename_i hr
    cases h
    exact Or.inl ⟨by simp [State.accepts, hr], rfl⟩
  · rename_i hr
    split at h
    · rename_i f hf
      cases h
      exact Or.inr (Or.inl ⟨f, hf, by simp [State.accepts, State.reqReady, hr, hf], by simpa using hr, rfl⟩)
    · rename_i hf
      split at h
      · rename_i hv
        obtain ⟨hready, rfl⟩ := acceptCommand_next h
        exact Or.inr (Or.inr (Or.inl ⟨_, rfl, hf,
          by simp [State.accepts, State.reqReady, hr, hf, hv], by simpa using hr, hready, rfl⟩))
      · rename_i hv
        cases h
        exact Or.inr (Or.inr (Or.inr ⟨hf, by simp [State.accepts, hr, hv], by simpa using hr, rfl⟩))

/-- A ready engine to which a command is presented executes it. -/
theorem step_of_accept {s : State} (hr : s.currentPins.rst = false)
    (hv : s.currentPins.reqValid = true) (hf : s.inFlight = none)
    (hready : s.Ready s.currentPins.command) :
    step s = .next (s.nextCycle.access s.currentPins.command.address
      s.currentPins.command.isRead s.currentPins.command.isWrite).launch := by
  have ha : s.currentPins.reqAddr < 2 ^ s.cfg.aw := by
    rw [← Pins.command_address]; exact hready.2
  have hx : exec s.currentPins.command s.nextCycle = .next _ :=
    exec_of_ready (s := s.nextCycle) hready
  simp only [step, cycle, hr, hf, hv, acceptCommand, decode_word, State.nextCycle_cfg, if_pos ha]
  rw [hx]
  rfl

/-- A cycle of a command in flight. -/
theorem step_of_inFlight {s : State} {f : InFlight} (hr : s.currentPins.rst = false)
    (hf : s.inFlight = some f) : step s = .next (s.nextCycle.countDown f) := by
  simp [step, cycle, hr, hf]

/-- `block` after each update that does not access. -/
@[simp] theorem State.block_nextCycle (s : State) (j : Nat) : s.nextCycle.block j = s.block j := rfl

@[simp] theorem State.block_launch (s : State) (j : Nat) : s.launch.block j = s.block j := by
  simp [State.block]

@[simp] theorem State.block_countDown (s : State) (f : InFlight) (j : Nat) :
    (s.countDown f).block j = s.block j := by simp [State.block]

@[simp] theorem State.block_applyReset (s : State) (j : Nat) :
    s.applyReset.block j = Block.unfilled := by
  simp only [State.block, State.applyReset_blk, List.getD_eq_getElem?_getD, List.getElem?_replicate]
  split <;> rfl

@[simp] theorem State.block_resetOf (cfg : Config) (j : Nat) :
    (State.resetOf cfg).block j = Block.unfilled := by
  simp only [State.block, State.resetOf_blk, List.getD_eq_getElem?_getD, List.getElem?_replicate]
  split <;> rfl

end Sys2Proof.Machine
end

