-- ==== Sys2Proof/Laws/Run.lean ====
section
/-! SUPPORT. Runs: what a clock cycle does to the blocks, how runs of cycles and of accesses are put
together, and that an access does not see the ports. -/

namespace Sys2Proof.Machine

/-- The configuration and the blocks after a clock cycle. -/
theorem step_blocks {s t : State} (h : step s = .next t) : t.cfg = s.cfg ∧
    ((s.accepts = some .reset ∧ ∀ j, t.block j = Block.unfilled) ∨
     (s.accepts = none ∧ ∀ j, t.block j = s.block j) ∨
     ∃ i, s.accepts = some (.command i) ∧ s.Ready i ∧
      ∀ j, t.block j = (s.access i.address i.isRead i.isWrite).block j) := by
  rcases step_cases h with ⟨ha, rfl⟩ | ⟨f, hf, ha, -, rfl⟩ | ⟨i, -, hf, ha, -, hr, rfl⟩ | ⟨-, ha, -, rfl⟩
  · exact ⟨rfl, Or.inl ⟨ha, by simp⟩⟩
  · exact ⟨by simp, Or.inr (Or.inl ⟨ha, by simp⟩)⟩
  · exact ⟨by simp, Or.inr (Or.inr ⟨i, ha, hr, fun j => by rw [State.block_launch]; rfl⟩)⟩
  · exact ⟨rfl, Or.inr (Or.inl ⟨ha, by simp⟩)⟩

/-- The first cycle of a run. -/
theorem run_succ (n : Nat) {s t : State} (h : step s = .next t) :
    core.run (n + 1) s = core.run n t := by
  have h' : core.step s = .next t := h
  simp only [Host.Core.run, h']

/-- If no pins of the coming cycles reset, the first do not, nor the rest. -/
theorem State.currentPins_no_reset {s : State} {n : Nat}
    (h : ∀ p ∈ s.pins.take (n + 1), p.rst = false) :
    s.currentPins.rst = false ∧ ∀ p ∈ s.pins.tail.take n, p.rst = false := by
  unfold State.currentPins
  cases hp : s.pins with
  | nil => exact ⟨rfl, by simp⟩
  | cons p ps =>
    rw [hp] at h
    exact ⟨h p (by simp), fun q hq => h q (by simp at hq ⊢; exact Or.inr hq)⟩

/-- An access put before a run of accesses. -/
theorem runTrace_cons {s t : State} {i : Instr} {is : List Instr} {hits : List Bool} (hr : s.Ready i)
    (h : runTrace (commands is) (s.access i.address i.isRead i.isWrite) = .next (t, hits)) :
    runTrace (commands (i :: is)) s = .next (t, decide (s.Hits i.address) :: hits) := by
  simp only [commands, List.map_cons, runTrace, exec_of_ready hr] at *
  rw [h]
  simp [State.setOutcome_hit]

/-- One trace after another. -/
theorem runTrace_append {s t u : State} {es fs : List Event} {hits hits' : List Bool}
    (h : runTrace es s = .next (t, hits)) (h' : runTrace fs t = .next (u, hits')) :
    runTrace (es ++ fs) s = .next (u, hits ++ hits') := by
  induction es generalizing s hits with
  | nil =>
    simp only [runTrace, Host.Outcome.next.injEq, Prod.mk.injEq] at h
    obtain ⟨rfl, rfl⟩ := h
    exact h'
  | cons e es ih =>
    cases e with
    | reset => exact ih h
    | command i =>
      simp only [List.cons_append, runTrace] at h ⊢
      cases hx : exec i s with
      | fault r => rw [hx] at h; simp at h
      | refused r => rw [hx] at h; simp at h
      | next s1 =>
        rw [hx] at h
        simp only at h ⊢
        cases hy : runTrace es s1 with
        | fault r => rw [hy] at h; simp at h
        | refused r => rw [hy] at h; simp at h
        | next p =>
          obtain ⟨p1, p2⟩ := p
          rw [hy] at h
          simp only [Host.Outcome.next.injEq, Prod.mk.injEq] at h
          obtain ⟨rfl, rfl⟩ := h
          rw [ih hy]
          simp

/-- An access sees the engine, not the ports: on the same engine it does the same. -/
theorem State.SameEngine.access {s u : State} (h : s.SameEngine u) (a : Nat) (r w : Bool) :
    (s.access a r w).SameEngine (u.access a r w) ∧ (u.access a r w).rsp = (s.access a r w).rsp := by
  obtain ⟨h1, h2, h3, h4, h5, h6⟩ := h
  have ho : u.setOutcome a r w = s.setOutcome a r w := by simp only [State.setOutcome, h1, h2, h3]
  simp only [State.SameEngine, State.access_cfg, State.access_blk, State.access_clk,
    State.access_missCnt, State.access_wbCnt, State.access_hasReset, State.access_rsp, ho, h1, h2, h3,
    h4, h5, h6]
  simp

end Sys2Proof.Machine
end

