-- ==== Sys2Proof/Tests/Slice0.lean ====
section
/-! SUPPORT. Tests on fixed values, each expected result from the spec's vectors (spec/95_test_vectors.md),
and for every statement with hypotheses a concrete state and operands that meet them. -/

namespace Sys2Proof.Tests

open Sys2Proof Sys2Proof.Machine

/-! ## Configurations and states of the tests -/

/-- 95_test_vectors.md §3: one set of two ways, the tag is the whole address. -/
def pair : Config where
  aw := 32
  cw := 64
  ways := 2
  totalBlocks := 2
  setIndexShift := 0
  setIndexMask := 0
  tagShift := 0
  latency := 0
  valid := by decide

/-- 95_test_vectors.md §7: as `pair`, with 2-bit counters. -/
def pairWrap : Config where
  aw := 32
  cw := 2
  ways := 2
  totalBlocks := 2
  setIndexShift := 0
  setIndexMask := 0
  tagShift := 0
  latency := 0
  valid := by decide

/-- 95_test_vectors.md §6.2: one set of three ways. -/
def triple : Config where
  aw := 32
  cw := 64
  ways := 3
  totalBlocks := 3
  setIndexShift := 0
  setIndexMask := 0
  tagShift := 0
  latency := 0
  valid := by decide

/-- 95_test_vectors.md P2: two sets of two ways; here with a latency of two cycles. -/
def twoSets : Config where
  aw := 32
  cw := 64
  ways := 2
  totalBlocks := 4
  setIndexShift := 4
  setIndexMask := 1
  tagShift := 5
  latency := 2
  valid := by decide

/-- 95_test_vectors.md G2: a mask with a hole; of the six sets two are unreachable. -/
def holed : Config where
  aw := 32
  cw := 64
  ways := 1
  totalBlocks := 6
  setIndexShift := 4
  setIndexMask := 5
  tagShift := 8
  latency := 0
  valid := by decide

/-- A state of `cfg` with given blocks and counters, reset and at rest. -/
def stateOf (cfg : Config) (blk : List Block) (clk missCnt wbCnt : Nat) : State :=
  { State.resetOf cfg with blk := blk, clk := clk, missCnt := missCnt, wbCnt := wbCnt }

/-- The state after the prefix of 95_test_vectors.md §3.5. -/
def dirtyVictim : State := stateOf pair [⟨true, true, 1, 1⟩, ⟨true, false, 2, 2⟩] 2 2 0

/-- A state with given pins in the coming cycles. -/
def withPins (s : State) (pins : List Pins) : State := { s with pins := pins }

/-- The pins that present a command. -/
def present (i : Instr) : Pins := Pins.ofWord (encode i)

/-- The pins of a reset cycle. -/
def resetPins : Pins := ⟨true, true, 7, true, true⟩

/-- The outcome is a next state of which `p` holds. -/
def nextIs (o : Host.Outcome State Fault Refusal) (p : State → Bool) : Bool :=
  match o with
  | .next t => p t
  | .fault _ => false
  | .refused _ => false

/-- Blocks, response and counters of a state. -/
def sees (blk : List Block) (hit : Bool) (clk missCnt wbCnt : Nat) (t : State) : Bool :=
  t.blk == blk && t.rsp == some hit && t.clk == clk && t.missCnt == missCnt && t.wbCnt == wbCnt

/-! ## WellFormed: the one check, with an ill-formed term -/

theorem test_wellFormed_refuses_wide_address : ¬ (Instr.accR (2 ^ 32)).WellFormed 32 := by decide

theorem test_wellFormed_accepts_highest_address : (Instr.accR (2 ^ 32 - 1)).WellFormed 32 := by decide

/-! ## Decoding: words written out from 30_encoding.md R72 and its table of R73 -/

theorem test_decode_accR : decode 32 0b1000000000000010 = .ok (.accR 0x2000) := by decide

theorem test_decode_accW : decode 32 0b1000000010000001 = .ok (.accW 0x2020) := by decide

theorem test_decode_accRW : decode 32 0b10000000000000011 = .ok (.accRW 0x4000) := by decide

theorem test_decode_accN : decode 32 0b10000000000000000 = .ok (.accN 0x4000) := by decide

theorem test_decode_highest : decode 32 0x3FFFFFFFF = .ok (.accRW 0xFFFFFFFF) := by decide

/-- Bit `AW + 2` has no wire (R72). -/
theorem test_decode_too_wide : decode 32 0x400000000 = .error .wordTooWide := by decide

/-- R76: no two rows of the command table claim one word. -/
theorem test_table_rows_disjoint :
    commandTable.Pairwise fun a b => a.mask = b.mask ∧ a.pattern ≠ b.pattern := by
  decide

/-! ## One access (95_test_vectors.md §3, §6, §7) -/

/-- §3.5, `ACC.N`: the dirty victim is dropped with no count. -/
theorem test_accN_evicts : nextIs (exec (.accN 3) dirtyVictim)
    (sees [⟨true, false, 3, 3⟩, ⟨true, false, 2, 2⟩] false 3 3 0) = true := by decide

/-- §3.2, `ACC.N`: a hit on a dirty block leaves it dirty and stamps it. -/
theorem test_accN_hits_dirty :
    nextIs (exec (.accN 1) (stateOf pair [⟨true, true, 1, 1⟩, Block.unfilled] 1 1 0))
      (sees [⟨true, true, 1, 2⟩, Block.unfilled] true 2 1 0) = true := by decide

/-- §3.5, `ACC.W`: a write alone counts no writeback. -/
theorem test_accW_evicts : nextIs (exec (.accW 3) dirtyVictim)
    (sees [⟨true, true, 3, 3⟩, ⟨true, false, 2, 2⟩] false 3 3 0) = true := by decide

/-- §6.1, `ACC.W`: both of two matching blocks are updated. -/
theorem test_accW_two_matches :
    nextIs (exec (.accW 7) (stateOf pair [⟨true, false, 7, 2⟩, ⟨true, false, 7, 4⟩] 5 0 0))
      (sees [⟨true, true, 7, 6⟩, ⟨true, true, 7, 6⟩] true 6 0 0) = true := by decide

/-- §7 row 4, `ACC.R`: the clock wraps to 0, the victim is still the older block. -/
theorem test_accR_wraps :
    nextIs (exec (.accR 3) (stateOf pairWrap [⟨true, false, 1, 3⟩, ⟨true, false, 2, 2⟩] 3 2 0))
      (sees [⟨true, false, 1, 3⟩, ⟨true, false, 3, 0⟩] false 0 3 0) = true := by decide

/-- §6.4, `ACC.R`: an invalid block with the same tag is no match. -/
theorem test_accR_stale_tag :
    nextIs (exec (.accR 5) (stateOf pair [⟨false, false, 5, 0⟩, Block.unfilled] 0 0 0))
      (sees [⟨true, false, 5, 1⟩, Block.unfilled] false 1 1 0) = true := by decide

/-- §3.5, `ACC.RW`: the dirty victim is counted. -/
theorem test_accRW_evicts : nextIs (exec (.accRW 3) dirtyVictim)
    (sees [⟨true, true, 3, 3⟩, ⟨true, false, 2, 2⟩] false 3 3 1) = true := by decide

/-- §6.2, `ACC.RW`: of two blocks with the smallest stamp the lower way is the victim. -/
theorem test_accRW_tie :
    nextIs (exec (.accRW 4)
        (stateOf triple [⟨true, true, 1, 5⟩, ⟨true, true, 2, 3⟩, ⟨true, false, 3, 3⟩] 9 0 0))
      (sees [⟨true, true, 1, 5⟩, ⟨true, true, 4, 10⟩, ⟨true, false, 3, 3⟩] false 10 1 1) = true := by
  decide

/-! ## Construction, reset, ports, trace text -/

/-- 95_test_vectors.md §4: `(5 + 1) × 1 = 6 > 4`. -/
theorem test_construct_bounds :
    firstFailing ⟨32, 64, 1, 4, 4, 5, 8, 0⟩ = some .gBounds := by decide

/-- §4: `G_WAYS` is tested before `G_DIV`. -/
theorem test_construct_ways : firstFailing ⟨32, 64, 0, 0, 5, 0xFF, 13, 0⟩ = some .gWays := by decide

/-- §4: a mask cut by the address width is legal. -/
theorem test_construct_cut_mask : (Params.mk 32 64 1 4 30 0xFF 30 0).GeomValid := by decide

/-- 95_test_vectors.md 5.2: nothing of the earlier run survives a reset. -/
theorem test_reset : nextIs (step (withPins dirtyVictim [resetPins]))
    (fun t => t.blk == [Block.unfilled, Block.unfilled] && t.clk == 0 && t.missCnt == 0 &&
      t.rsp == none) = true := by decide

/-- 95_test_vectors.md 5.5: an access before the first reset is refused. -/
theorem test_never_reset :
    exec (.accR 0) { dirtyVictim with hasReset := false } = .refused .neverReset := rfl

/-- S1 row 1 through the ports: the word `0x8002` as the first command after reset. -/
theorem test_first_step : nextIs (step (State.reset.withFetchWord 34 0x8002))
    (fun t => t.block 0 == ⟨true, false, 1, 1⟩ && t.outPorts.rspValid && !t.outPorts.rspHit &&
      t.outPorts.accCnt == 1 && t.outPorts.missCnt == 1) = true := by decide

/-- 30_encoding.md R78: a comment, an empty line, both forms of an address, a `RESET`. -/
theorem test_trace :
    readTrace 32 ['A', 'C', 'C', '.', 'R', 'W', ' ', '0', 'x', '1', 'f', ' ', ';', 'c', '\n', '\n',
      'R', 'E', 'S', 'E', 'T', '\n', 'A', 'C', 'C', '.', 'N', ' ', '1', '2'] =
    .ok [.command (.accRW 0x1F), .reset, .command (.accN 12)] := by decide

/-- R78: an address that does not fit is refused by name. -/
theorem test_trace_address_too_large :
    readTrace 4 ['A', 'C', 'C', '.', 'W', ' ', '1', '6'] = .error .addressTooLarge := by decide

/-! ## Witnesses: states and operands that meet the hypotheses of the statements
 -/

/-- The state of §3.1: one clean block, one invalid. -/
def oneClean : State := stateOf pair [⟨true, false, 1, 1⟩, Block.unfilled] 1 1 0

/-- An engine of `twoSets` with a command in flight and two cycles to go. -/
def busy : State := { State.resetOf twoSets with inFlight := some ⟨true, 2⟩ }

/-- `twoSets` after reset, with a command presented in the first of three cycles. -/
def presented : State :=
  withPins (State.resetOf twoSets) [present (.accRW 0x40), Pins.idle, present (.accR 0x40)]

theorem witness_DecodeOfEncode :
    (Instr.accRW (2 ^ 32 - 1)).WellFormed 32 ∧ (Instr.accN 0).WellFormed 0 := by decide

theorem witness_EveryWordIsACommand : (2 ^ 34 - 1 < 2 ^ (32 + 2)) ∧ 2 ^ (32 + 2) ≤ 2 ^ 34 := by decide

theorem witness_DecompTestPoints :
    Config.sourceGeometry.setIndexShift = 5 ∧ Config.sourceGeometry.setIndexMask = 0xFF ∧
    Config.sourceGeometry.tagShift = 13 ∧ Config.sourceGeometry.ways = 4 := by decide

theorem witness_SetIndexRange : 0xFFFFFFFF < 2 ^ holed.aw := by decide

theorem witness_ReachableSetIndices :
    holed.setIndexMask < 2 ^ (holed.aw - holed.setIndexShift) ∧ holed.iw = 2 ∧
    holed.mEff ≠ 2 ^ holed.iw - 1 ∧ twoSets.mEff = 2 ^ twoSets.iw - 1 := by decide

theorem witness_BlockIndexInArray : 0xFFFFFFFF < 2 ^ holed.aw ∧ 0 < holed.ways ∧
    (decomp holed.toParams 0xFFFFFFFF).base = holed.totalBlocks - 1 := by decide

theorem witness_TagRange : 2 ^ 32 - 1 < 2 ^ pair.tw ∧ pair.tagShift = 0 := by decide

theorem witness_IgnoredAddressBits : 0x20 < 2 ^ holed.aw ∧ 0x0 < 2 ^ holed.aw ∧
    decomp holed.toParams 0x20 = decomp holed.toParams 0x0 := by decide

theorem witness_CanonicalLinesDoNotAlias :
    twoSets.toParams.GeomCanonical ∧ Config.sourceGeometry.toParams.GeomCanonical := by decide

theorem witness_ConstructionChecksGeometry :
    Config.sourceGeometry.toParams.GeomValid ∧
    ¬ (Params.mk 32 64 4 1020 5 0xFF 13 0).GeomValid ∧ ¬ (Params.mk 0 64 2 2 0 0 0 0).GeomValid := by
  decide

theorem witness_ResetPinResetsEverything :
    (withPins dirtyVictim [resetPins]).currentPins.rst = true := rfl

theorem witness_ResetIsIdempotent : ∃ t, (withPins busy [resetPins, resetPins]).currentPins.rst = true ∧
    step (withPins busy [resetPins, resetPins]) = .next t ∧ t.currentPins.rst = true :=
  ⟨_, rfl, rfl, rfl⟩

theorem witness_FirstAccessAfterReset : (Instr.accW 0x2020).WellFormed Config.sourceGeometry.aw := by
  decide

/-- An engine that was never reset, and a command on its port. -/
def unreset : State := withPins (State.powerOn pair 0) [present (.accR 5)]

theorem witness_NeverResetEngineRefusesAccess : unreset.hasReset = false ∧ unreset.inFlight = none ∧
    unreset.currentPins.rst = false ∧ unreset.currentPins.reqAddr < 2 ^ unreset.cfg.aw :=
  ⟨rfl, rfl, rfl, by decide⟩

theorem witness_HitIffSomeBlockMatches :
    oneClean.Ready (.accR 1) ∧ oneClean.Hits 1 ∧ ¬ oneClean.Matches 1 1 ∧
    oneClean.Ready (.accR 2) ∧ ¬ oneClean.Hits 2 := by decide

theorem witness_HitUpdatesEveryMatchingBlock :
    oneClean.Ready (.accW 1) ∧ oneClean.Hits 1 ∧
    (stateOf pair [⟨true, false, 7, 2⟩, ⟨true, false, 7, 4⟩] 5 0 0).Hits 7 := by decide

theorem witness_MissFillsFirstInvalidBlock :
    oneClean.WF ∧ oneClean.Ready (.accRW 2) ∧ ¬ oneClean.Hits 2 ∧ oneClean.IsFirstInvalid 2 1 := by
  decide

theorem witness_MissReplacesOldestBlock :
    dirtyVictim.WF ∧ dirtyVictim.Ready (.accRW 3) ∧ ¬ dirtyVictim.Hits 3 ∧ dirtyVictim.SetFull 3 ∧
    dirtyVictim.HasOldest 3 0 ∧ (dirtyVictim.block (dirtyVictim.wayIndex 3 0)).dirty = true := by
  decide

/-- The same at a tie, on the state of 95_test_vectors.md §6.2. -/
theorem witness_MissReplacesOldestBlock_tie :
    let s := stateOf triple [⟨true, true, 1, 5⟩, ⟨true, true, 2, 3⟩, ⟨true, false, 3, 3⟩] 9 0 0
    s.WF ∧ s.Ready (.accRW 4) ∧ ¬ s.Hits 4 ∧ s.SetFull 4 ∧ s.HasOldest 4 1 := by
  decide

theorem witness_EveryCommandCompletes : dirtyVictim.hasReset = true ∧
    (2 ^ 32 - 1 < 2 ^ dirtyVictim.cfg.aw) ∧ dirtyVictim.Hits 2 ∧ ¬ dirtyVictim.Hits (2 ^ 32 - 1) := by
  decide

theorem witness_FlavoursDifferOnlyInDirtyAndWriteback :
    dirtyVictim.hasReset = true ∧ 3 < 2 ^ dirtyVictim.cfg.aw ∧
    (State.resetOf twoSets).hasReset = true ∧ 0x40 < 2 ^ twoSets.aw ∧
    ¬ (State.resetOf twoSets).InSet 0x40 2 := by decide

theorem witness_AccessFrame : dirtyVictim.WF ∧ ∃ t u, exec (.accW 3) dirtyVictim = .next t ∧
    ¬ dirtyVictim.Hits 3 ∧ exec (.accN 2) dirtyVictim = .next u ∧ dirtyVictim.Hits 2 :=
  ⟨by decide, _, _, rfl, by decide, rfl, by decide⟩

theorem witness_WritebackCountedExactlyWhen : dirtyVictim.WF ∧ dirtyVictim.Ready (.accRW 3) ∧
    dirtyVictim.IsVictim 3 0 ∧ (dirtyVictim.block (dirtyVictim.wayIndex 3 0)).dirty = true ∧
    dirtyVictim.Ready (.accW 3) ∧ busy.accepts = none ∧ ∃ t, step busy = .next t :=
  ⟨by decide, by decide, by decide, by decide, by decide, by decide, _, rfl⟩

/-- The clock at `2^CW - 1`, the miss counter too. -/
def atMaximum : State := stateOf pairWrap [⟨true, false, 1, 3⟩, ⟨true, false, 2, 2⟩] 3 3 0

theorem witness_CountersWrapToZero : atMaximum.Ready (.accR 3) ∧
    atMaximum.clk = 2 ^ atMaximum.cfg.cw - 1 ∧ ¬ atMaximum.Hits 3 ∧
    atMaximum.missCnt = 2 ^ atMaximum.cfg.cw - 1 := by decide

/-- 95_test_vectors.md §7 row 5: the miss counter at its maximum, the clock at 0. -/
theorem witness_CountersWrapToZero_row5 :
    let s := stateOf pairWrap [⟨true, false, 1, 3⟩, ⟨true, false, 3, 0⟩] 0 3 0
    s.Ready (.accR 4) ∧ ¬ s.Hits 4 ∧ s.missCnt = 2 ^ s.cfg.cw - 1 ∧ s.clk ≠ 2 ^ s.cfg.cw - 1 := by
  decide

/-- The writeback counter at its maximum, and a dirty victim. -/
theorem witness_CountersWrapToZero_writeback :
    let s := stateOf pairWrap [⟨true, true, 1, 1⟩, ⟨true, false, 2, 2⟩] 2 3 3
    s.Ready (.accRW 3) ∧ s.WF ∧ (∃ w, w < 2 ∧ s.IsVictim 3 w ∧ (s.block (s.wayIndex 3 w)).dirty = true) ∧
    s.wbCnt = 2 ^ s.cfg.cw - 1 := by decide

theorem witness_NoCycleFaults : presented.WF ∧ presented.hasReset = true := by decide

/-- No tag twice, by the way pairs of the one set. -/
theorem dirtyVictim_noDuplicateTags : dirtyVictim.NoDuplicateTags := by
  intro k hk v hv w hw
  have hk : k < 1 := hk
  have hv : v < 2 := hv
  have hw : w < 2 := hw
  interval_cases k
  interval_cases v <;> interval_cases w <;> decide

theorem witness_AccessedLineIsPresentOnce : dirtyVictim.WF ∧ dirtyVictim.Ready (.accR 3) ∧
    dirtyVictim.NoDuplicateTags ∧ dirtyVictim.Timestamps ∧ dirtyVictim.NoWrap ∧
    (Instr.accW 3).WellFormed dirtyVictim.cfg.aw ∧
    decomp dirtyVictim.cfg.toParams 3 = decomp dirtyVictim.cfg.toParams 3 :=
  ⟨by decide, by decide, dirtyVictim_noDuplicateTags, by decide, by decide, by decide, rfl⟩

theorem witness_OneScanSelectsTheSameBlock : dirtyVictim.WF ∧ dirtyVictim.Ready (.accRW 3) ∧
    (∀ j, j < dirtyVictim.cfg.totalBlocks →
      ((dirtyVictim.block j).valid = true → 1 ≤ (dirtyVictim.block j).lat) ∧
      ((dirtyVictim.block j).valid = false → (dirtyVictim.block j).lat = 0)) ∧
    dirtyVictim.DirtyImpliesValid ∧ ¬ dirtyVictim.Hits 3 ∧ dirtyVictim.HasOldest 3 0 ∧
    oneClean.DirtyImpliesValid ∧ ¬ oneClean.Hits 2 ∧ oneClean.HasOldest 2 1 := by decide

/-- `dirtyVictim` with the evicting command on its port. -/
def evicting : State := withPins dirtyVictim [present (.accRW 3)]

theorem witness_StepKeepsShape : evicting.WF ∧ ∃ t, step evicting = .next t := ⟨by decide, _, rfl⟩

theorem witness_StepKeepsDirtyImpliesValid :
    evicting.WF ∧ evicting.DirtyImpliesValid ∧ ∃ t, step evicting = .next t :=
  ⟨by decide, by decide, _, rfl⟩

theorem witness_StepKeepsNoDuplicateTags :
    evicting.WF ∧ evicting.NoDuplicateTags ∧ ∃ t, step evicting = .next t :=
  ⟨by decide, dirtyVictim_noDuplicateTags, _, rfl⟩

theorem witness_StepKeepsValidPrefix :
    evicting.WF ∧ evicting.ValidPrefix ∧ ∃ t, step evicting = .next t :=
  ⟨by decide, by decide, _, rfl⟩

theorem witness_StepKeepsTimestamps : evicting.WF ∧ evicting.NoDuplicateTags ∧
    evicting.Timestamps ∧ evicting.NoWrap ∧ ∃ t, step evicting = .next t :=
  ⟨by decide, dirtyVictim_noDuplicateTags, by decide, by decide, _, rfl⟩

theorem witness_StepKeepsCounterOrder :
    evicting.CounterOrder ∧ evicting.NoWrap ∧ ∃ t, step evicting = .next t :=
  ⟨by decide, by decide, _, rfl⟩

theorem witness_MissesAreValidBlocksPlusEvictions :
    (∀ i ∈ [Instr.accW 1, .accR 2, .accRW 3], i.WellFormed pair.aw) ∧
    [Instr.accW 1, .accR 2, .accRW 3].length < 2 ^ pair.cw ∧
    evictions [Instr.accW 1, .accR 2, .accRW 3] (State.resetOf pair) = 1 := by decide

theorem witness_EveryMissFillsOrEvicts : evicting.WF ∧ evicting.CounterOrder ∧ evicting.NoWrap ∧
    (∃ t u, exec (.accRW 3) evicting = .next t ∧ step evicting = .next u) ∧
    evicting.accepts = some (.command (.accRW 3)) ∧ dirtyVictim.accepts = none ∧
    (withPins dirtyVictim [resetPins]).accepts = some .reset :=
  ⟨by decide, by decide, by decide, ⟨_, _, rfl, rfl⟩, by decide, by decide, by decide⟩

theorem witness_OnlyResetInvalidates : ∃ t, step (withPins dirtyVictim [resetPins]) = .next t ∧
    ((withPins dirtyVictim [resetPins]).block 1).valid = true ∧ (t.block 1).valid = false :=
  ⟨_, rfl, rfl, rfl⟩

/-- `dirtyVictim` with a command that replaces its dirty block by a clean one. -/
def cleaning : State := withPins dirtyVictim [present (.accN 3)]

theorem witness_DirtyClearedOnlyByReplacement : cleaning.WF ∧ ∃ t, step cleaning = .next t ∧
    (cleaning.block 0).dirty = true ∧ (t.block 0).dirty = false :=
  ⟨by decide, _, rfl, rfl, rfl⟩

/-- `holed` after reset, with an access to the highest set. -/
def holedAccess : State := withPins (State.resetOf holed) [present (.accRW 0xFFFFFFFF)]

theorem witness_UnreachableBlocksKeepResetValue :
    ((2 / holedAccess.cfg.ways) &&& holedAccess.cfg.mEff ≠ 2 / holedAccess.cfg.ways) ∧
    holedAccess.block 2 = Block.unfilled ∧ ∃ t, step holedAccess = .next t :=
  ⟨by decide, rfl, _, rfl⟩

theorem witness_ConfigurationIsConstant : ∃ t, step presented = .next t := ⟨_, rfl⟩

theorem witness_StepRunsDecodedCommand : presented.currentPins.rst = false ∧
    presented.currentPins.reqValid = true ∧ presented.inFlight = none ∧
    decode presented.cfg.aw presented.currentPins.word = .ok (.accRW 0x40) := by decide

theorem witness_BusyEngineAcceptsNothing :
    (withPins busy [present (.accR 0)]).inFlight = some ⟨true, 2⟩ ∧
    (withPins busy [present (.accR 0)]).currentPins.rst = false ∧
    ({ busy with inFlight := some ⟨false, 1⟩ }).inFlight = some ⟨false, 1⟩ ∧
    ({ busy with inFlight := some ⟨false, 1⟩ }).currentPins.rst = false := by decide

theorem witness_IdleCycleChangesNothing : dirtyVictim.currentPins.rst = false ∧
    dirtyVictim.currentPins.reqValid = false ∧ dirtyVictim.inFlight = none := by decide

theorem witness_PortsShowCounters : dirtyVictim.inFlight = none ∧
    ({ dirtyVictim with rsp := some true }).rsp = some true := by decide

theorem witness_ResponseAfterLatency : presented.accepts = some (.command (.accRW 0x40)) ∧
    presented.Ready (.accRW 0x40) ∧ (∀ p ∈ presented.pins.take (presented.cfg.latency + 1), p.rst = false) ∧
    1 < presented.cfg.latency := by decide

/-- The same with `LATENCY = 0`. -/
theorem witness_ResponseAfterLatency_zero :
    evicting.accepts = some (.command (.accRW 3)) ∧ evicting.Ready (.accRW 3) ∧
    (∀ p ∈ evicting.pins.take (evicting.cfg.latency + 1), p.rst = false) ∧
    evicting.cfg.latency = 0 := by decide

theorem witness_CyclesRefineSequence : ∃ t, core.run 3 presented = .next t ∧
    State.acceptsIn 3 presented = [.command (.accRW 0x40)] :=
  ⟨_, rfl, by decide⟩

theorem witness_EveryCommandAnsweredOnceInOrder : (∃ t, core.run 3 presented = .next t) ∧
    (∀ p ∈ presented.pins.take 3, p.rst = false) :=
  ⟨⟨_, rfl⟩, by decide⟩

theorem witness_FlagsDoNotInfluenceHits : dirtyVictim.hasReset = true ∧
    (∀ i ∈ [Instr.accW 3, .accN 1], i.WellFormed dirtyVictim.cfg.aw) ∧
    [Instr.accR 3, .accRW 1].map Instr.address = [Instr.accW 3, .accN 1].map Instr.address := by decide

theorem witness_SecondAccessHits : (State.resetOf twoSets).WF ∧
    (State.resetOf twoSets).Ready (.accR 0x40) ∧ (Instr.accW 0x44).WellFormed twoSets.aw ∧
    (∀ j ∈ [Instr.accRW 0x10, .accN 0x30], j.WellFormed twoSets.aw ∧
      (decomp twoSets.toParams j.address).setIndex ≠ (decomp twoSets.toParams 0x40).setIndex) ∧
    decomp twoSets.toParams 0x44 = decomp twoSets.toParams 0x40 := by decide

theorem witness_LeastRecentlyUsedIsEvicted : pair.mEff = 0 ∧
    [Instr.accW 2, .accRW 3].length = pair.ways ∧
    (∀ j ∈ Instr.accR 1 :: [.accW 2, .accRW 3], j.WellFormed pair.aw) ∧
    ((Instr.accR 1 :: [.accW 2, .accRW 3]).map fun j => (decomp pair.toParams j.address).tag).Nodup ∧
    pair.ways + 1 < 2 ^ pair.cw := by decide

/-- `pair` after reset and one access `i`. -/
def afterFill (i : Instr) : State := (State.resetOf pair).access i.address i.isRead i.isWrite

/-- For both clauses: filled by a write, and filled by a read. -/
theorem witness_WritebackAccounting : ∀ i : Instr, i = .accW 1 ∨ i = .accR 1 →
    (State.resetOf pair).WF ∧ (State.resetOf pair).IsAllocated i.address 0 ∧
    exec i (State.resetOf pair) = .next (afterFill i) ∧
    RunAll (fun j r => ∀ x, r.IsAllocated j.address x →
        r.wayIndex j.address x ≠ (State.resetOf pair).wayIndex i.address 0) [.accR 2] (afterFill i) ∧
    RunAll (fun j r => r.Matches j.address ((State.resetOf pair).wayIndex i.address 0) →
        j.isWrite = false) [.accR 2] (afterFill i) ∧
    ∃ u hits, runTrace (commands [.accR 2]) (afterFill i) = .next (u, hits) ∧
      u.Ready (.accRW 3) ∧ u.IsVictim 3 0 ∧
      u.wayIndex 3 0 = (State.resetOf pair).wayIndex i.address 0 := by
  intro i hi
  rcases hi with rfl | rfl <;>
    refine ⟨by decide, by decide, rfl, ⟨?_, trivial⟩, ⟨fun _ => rfl, trivial⟩, _, _, rfl, by decide,
      by decide, by decide⟩ <;>
    intro x hx <;>
    have hlt : x < 2 := hx.2.elim And.left (fun h => h.2.1) <;>
    interval_cases x <;>
    revert hx <;>
    decide

theorem witness_CountersAreMonotonic : dirtyVictim.hasReset = true ∧ dirtyVictim.CounterOrder ∧
    (∀ i ∈ [Instr.accRW 3, .accR 3], i.WellFormed dirtyVictim.cfg.aw) ∧
    dirtyVictim.clk + [Instr.accRW 3, .accR 3].length < 2 ^ dirtyVictim.cfg.cw := by decide

end Sys2Proof.Tests
end

section
/-! PROOFS. The scope of the model (00_scope.md): what no clock cycle touches. -/

namespace Sys2Proof.Machine

/-- Settles O41: in each of the four things a clock cycle can be, the next state keeps the
configuration, which `step_blocks` reads off `step_cases`. -/
theorem configurationIsConstant : Obligations.ConfigurationIsConstant := by
  intro s t h
  obtain ⟨hcfg, -⟩ := step_blocks h
  exact hcfg

end Sys2Proof.Machine
end

section
/-! PROOFS. The invariants of 10_state.md section 8, the counters, and the effect of a reset: first what a
clock cycle does to the engine, said once, then each invariant for one access, then the statements. -/

namespace Sys2Proof.Machine

/-! ## What a clock cycle does to the engine -/

/-- A property that holds whatever is on the ports and in flight passes to every state with the same
engine. -/
theorem State.SameEngine.transfer {s t : State} (h : s.SameEngine t) {P : State → Prop}
    (hP : ∀ f r p n, P { s with inFlight := f, rsp := r, pins := p, freeIdx := n }) : P t := by
  obtain ⟨hcfg, hblk, hclk, hmiss, hwb, hreset⟩ := h
  have ht : t = { s with inFlight := t.inFlight, rsp := t.rsp, pins := t.pins, freeIdx := t.freeIdx } := by
    simp only [← hcfg, ← hblk, ← hclk, ← hmiss, ← hwb, ← hreset]
  rw [ht]
  exact hP _ _ _ _

/-- The engine after a clock cycle is the engine after what the cycle takes: a reset, nothing, or one
access. -/
theorem step_engine {s t : State} (h : step s = .next t) :
    (s.accepts = some .reset ∧ s.applyReset.SameEngine t) ∨
    (s.accepts = none ∧ s.SameEngine t) ∨
    ∃ i, s.accepts = some (.command i) ∧ s.Ready i ∧
      (s.access i.address i.isRead i.isWrite).SameEngine t := by
  rcases step_cases h with ⟨ha, rfl⟩ | ⟨f, -, ha, -, rfl⟩ | ⟨i, -, -, ha, -, hready, rfl⟩ | ⟨-, ha, -, rfl⟩
  · exact Or.inl ⟨ha, rfl, rfl, rfl, rfl, rfl, rfl⟩
  · exact Or.inr (Or.inl ⟨ha, by simp [State.SameEngine]⟩)
  · have hports : s.SameEngine s.nextCycle := ⟨rfl, rfl, rfl, rfl, rfl, rfl⟩
    have hacc := (hports.access i.address i.isRead i.isWrite).1
    exact Or.inr (Or.inr ⟨i, ha, hready, by
      simpa only [State.SameEngine, State.launch_cfg, State.launch_blk, State.launch_clk,
        State.launch_missCnt, State.launch_wbCnt, State.launch_hasReset] using hacc⟩)
  · exact Or.inr (Or.inl ⟨ha, rfl, rfl, rfl, rfl, rfl, rfl⟩)

/-- A property of the engine that holds after a reset and that every access a cycle may take keeps, is kept
by the cycle. -/
theorem step_keeps {P : State → Prop} {s t : State}
    (hports : ∀ u f r p n, P u → P { u with inFlight := f, rsp := r, pins := p, freeIdx := n })
    (hreset : P s.applyReset)
    (haccess : ∀ i, s.Ready i → P (s.access i.address i.isRead i.isWrite))
    (hs : P s) (h : step s = .next t) : P t := by
  rcases step_engine h with ⟨-, hsame⟩ | ⟨-, hsame⟩ | ⟨i, -, hready, hsame⟩
  · exact hsame.transfer fun f r p n => hports _ f r p n hreset
  · exact hsame.transfer fun f r p n => hports _ f r p n hs
  · exact hsame.transfer fun f r p n => hports _ f r p n (haccess i hready)

/-! ## Shape -/

/-- Tag and stamp of a block are of the widths of the configuration (10_state.md R23, R24). -/
def Block.Fits (cfg : Config) (b : Block) : Prop := b.tag < 2 ^ cfg.tw ∧ b.lat < 2 ^ cfg.cw

/-- The part of `State.WF` that speaks of the engine. -/
def State.EngineShape (s : State) : Prop :=
  s.blk.length = s.cfg.totalBlocks ∧ (∀ b ∈ s.blk, b.Fits s.cfg) ∧
    s.clk < 2 ^ s.cfg.cw ∧ s.missCnt < 2 ^ s.cfg.cw ∧ s.wbCnt < 2 ^ s.cfg.cw

/-- The part of `State.WF` that speaks of the handshake (30_encoding.md R70, R71). -/
def State.PortShape (s : State) : Prop :=
  (∀ f ∈ s.inFlight.toList, 1 ≤ f.left ∧ f.left ≤ s.cfg.latency) ∧
    (∀ p ∈ s.pins, p.reqAddr < 2 ^ s.cfg.aw)

theorem State.wf_iff (s : State) : s.WF ↔ s.EngineShape ∧ s.PortShape := by
  simp only [State.WF, State.EngineShape, State.PortShape, Block.Fits, and_assoc]

theorem State.WF.length_blk {s : State} (h : s.WF) : s.blk.length = s.cfg.totalBlocks := h.1

theorem Block.unfilled_fits (cfg : Config) : Block.unfilled.Fits cfg :=
  ⟨Nat.two_pow_pos _, Nat.two_pow_pos _⟩

/-- A tag computed from an address of the engine is of `TW` bits (40_address_decomposer.md R92). -/
theorem decomp_tag_lt (cfg : Config) {a : Nat} (ha : a < 2 ^ cfg.aw) :
    (decomp cfg.toParams a).tag < 2 ^ cfg.tw := by
  obtain ⟨-, -, -, -, -, htag, -, -⟩ := cfg.valid
  exact shiftRight_lt a _ _ htag ha

/-- What holds of all blocks of the array, and of the reset block, holds of every block read. -/
theorem State.forall_mem_blk_iff {s : State} {Q : Block → Prop} (h0 : Q Block.unfilled) :
    (∀ b ∈ s.blk, Q b) ↔ ∀ j, Q (s.block j) := by
  constructor
  · intro h j
    rcases Nat.lt_or_ge j s.blk.length with hj | hj
    · rw [State.block, List.getD_eq_getElem _ _ hj]; exact h _ (List.getElem_mem hj)
    · rw [State.block, List.getD_eq_default _ _ hj]; exact h0
  · intro h b hb
    obtain ⟨j, hj, rfl⟩ := List.getElem_of_mem hb
    rw [← List.getD_eq_getElem s.blk Block.unfilled hj]
    exact h j

theorem State.EngineShape.access {s : State} (h : s.EngineShape) {a : Nat} (ha : a < 2 ^ s.cfg.aw)
    (r w : Bool) : (s.access a r w).EngineShape := by
  obtain ⟨hlen, hblk, hclk, hmiss, hwb⟩ := h
  have h0 := Block.unfilled_fits s.cfg
  have hnow : increment s.cfg.cw s.clk < 2 ^ s.cfg.cw := increment_lt _ _
  refine ⟨by rw [State.access_length, hlen]; rfl, ?_, hnow, ?_, ?_⟩
  · rw [State.access_cfg, State.forall_mem_blk_iff h0]
    intro j
    have hj : (s.block j).Fits s.cfg := (State.forall_mem_blk_iff h0).1 hblk j
    rcases s.access_block_cases a r w j with hb | ⟨-, ⟨hb, -⟩ | hb⟩ <;> rw [hb]
    · exact hj
    · exact ⟨hj.1, hnow⟩
    · exact ⟨decomp_tag_lt s.cfg ha, hnow⟩
  · rw [State.access_missCnt]
    split
    · exact hmiss
    · exact increment_lt _ _
  · rw [State.access_wbCnt]
    split
    · exact increment_lt _ _
    · exact hwb

theorem State.EngineShape.applyReset (s : State) : s.applyReset.EngineShape := by
  refine ⟨by simp, fun b hb => ?_, Nat.two_pow_pos _, Nat.two_pow_pos _, Nat.two_pow_pos _⟩
  rw [List.eq_of_mem_replicate hb]
  exact Block.unfilled_fits s.cfg

theorem State.WF.access {s : State} (h : s.WF) {a : Nat} (ha : a < 2 ^ s.cfg.aw) (r w : Bool) :
    (s.access a r w).WF := by
  obtain ⟨hengine, hports⟩ := s.wf_iff.1 h
  exact (State.wf_iff _).2 ⟨hengine.access ha r w, hports⟩

/-- The handshake through a clock cycle (30_encoding.md R71): a command is launched with `LATENCY` cycles to
go, and one in flight has one less each cycle until the last. -/
theorem State.PortShape.step {s t : State} (hs : s.PortShape) (h : step s = .next t) :
    t.PortShape := by
  obtain ⟨hfly, hpins⟩ := hs
  have htail : ∀ p ∈ s.pins.tail, p.reqAddr < 2 ^ s.cfg.aw := fun p hp =>
    hpins p (List.mem_of_mem_tail hp)
  rcases step_cases h with ⟨-, rfl⟩ | ⟨f, hf, -, -, rfl⟩ | ⟨i, -, hf, -, -, -, rfl⟩ | ⟨hf, -, -, rfl⟩
  · exact ⟨by simp, htail⟩
  · refine ⟨?_, by simpa using htail⟩
    have hleft : f.left ≤ s.cfg.latency := (hfly f (by simp [hf])).2
    by_cases h1 : f.left ≤ 1
    · simp [h1]
    · simp only [State.countDown_inFlight, if_neg h1, State.countDown_cfg, State.nextCycle_cfg,
        Option.toList_some, List.mem_singleton, forall_eq]
      omega
  · refine ⟨?_, by simpa using htail⟩
    by_cases h0 : s.cfg.latency = 0
    · simp [h0, hf]
    · simp [h0]; omega
  · exact ⟨by simp [hf], htail⟩

/-- Settles O30: array and counters by `step_keeps`, since an access keeps their shape; the handshake by
what each kind of cycle does to it. -/
theorem stepKeepsShape : Obligations.StepKeepsShape := by
  intro s t hwf h
  obtain ⟨hengine, hports⟩ := s.wf_iff.1 hwf
  have hkept : t.EngineShape := step_keeps (fun _ _ _ _ _ hu => hu)
    (State.EngineShape.applyReset s) (fun _ hready => hengine.access hready.2 _ _) hengine h
  exact t.wf_iff.2 ⟨hkept, hports.step h⟩

/-! ## R37: dirty implies valid -/

theorem State.DirtyImpliesValid.access {s : State} (h : s.DirtyImpliesValid) (a : Nat) (r w : Bool) :
    (s.access a r w).DirtyImpliesValid := by
  intro j hj hdirty
  rcases s.access_block_cases a r w j with hb | ⟨-, ⟨hb, hvalid⟩ | hb⟩
  · rw [hb] at hdirty ⊢; exact h j hj hdirty
  · rw [hb]; exact hvalid
  · rw [hb]; rfl

theorem State.DirtyImpliesValid.applyReset (s : State) : s.applyReset.DirtyImpliesValid := by
  intro j _ hdirty
  rw [State.block_applyReset] at hdirty
  exact absurd hdirty (by simp [Block.unfilled])

/-- Settles O31: an access leaves a block, stamps a valid one, or fills it, so a block that is dirty
afterwards is valid. -/
theorem stepKeepsDirtyImpliesValid : Obligations.StepKeepsDirtyImpliesValid := by
  intro s t _ hs h
  exact step_keeps (P := State.DirtyImpliesValid) (fun _ _ _ _ _ hu => hu)
    (State.DirtyImpliesValid.applyReset s) (fun _ _ => hs.access _ _ _) hs h

/-! ## R38: no tag twice in a set -/

/-- A hit changes no `valid` and no `tag` (R104). -/
theorem State.access_valid_tag_of_hit {s : State} {a : Nat} (h : s.Hits a) (r w : Bool) (j : Nat) :
    ((s.access a r w).block j).valid = (s.block j).valid ∧
      ((s.access a r w).block j).tag = (s.block j).tag := by
  rw [State.access_block_of_hit h]
  split <;> exact ⟨rfl, rfl⟩

/-- On a miss no valid block of the addressed set holds the tag (R103). -/
theorem State.tag_ne_of_not_hits {s : State} {a j : Nat} (h : ¬ s.Hits a) (hj : s.InSet a j)
    (hvalid : (s.block j).valid = true) : (s.block j).tag ≠ (decomp s.cfg.toParams a).tag :=
  fun htag => State.not_matches_of_not_hits h j ⟨hj, hvalid, htag⟩

/-- If one way of set `k` is a way of the addressed set, every way of set `k` is in that set. -/
theorem State.inSet_of_wayIndex_eq {s : State} {a k u x : Nat} (hu : u < s.cfg.ways)
    (hx : x < s.cfg.ways) (h : k * s.cfg.ways + u = s.wayIndex a x) {v : Nat} (hv : v < s.cfg.ways) :
    s.InSet a (k * s.cfg.ways + v) := by
  rw [s.wayIndex_set] at h
  rw [(index_inj s.cfg hu hx h).1]
  exact s.inSet_wayIndex a v hv

theorem State.NoDuplicateTags.access {s : State} (hn : s.NoDuplicateTags)
    (hlen : s.blk.length = s.cfg.totalBlocks) {a : Nat} (ha : a < 2 ^ s.cfg.aw) (r w : Bool) :
    (s.access a r w).NoDuplicateTags := by
  intro k hk u hu v hv huvalid hvvalid htag
  change u < s.cfg.ways at hu
  change v < s.cfg.ways at hv
  rw [State.access_cfg] at huvalid hvvalid htag
  by_cases h : s.Hits a
  · have hkept := State.access_valid_tag_of_hit h r w
    rw [(hkept _).1] at huvalid hvvalid
    rw [(hkept _).2, (hkept _).2] at htag
    exact hn k hk u hu v hv huvalid hvvalid htag
  · obtain ⟨-, x, hx, -, hb⟩ := State.access_of_miss hlen ha h r w
    have hxw : x < s.cfg.ways := State.isAllocated_lt hx
    rw [hb] at huvalid hvvalid
    rw [hb, hb] at htag
    by_cases hux : k * s.cfg.ways + u = s.wayIndex a x <;>
      by_cases hvx : k * s.cfg.ways + v = s.wayIndex a x
    · exact (index_inj s.cfg hu hv (hux.trans hvx.symm)).2
    · rw [if_neg hvx] at hvvalid
      rw [if_pos hux, if_neg hvx] at htag
      exact absurd htag.symm
        (State.tag_ne_of_not_hits h (State.inSet_of_wayIndex_eq hu hxw hux hv) hvvalid)
    · rw [if_neg hux] at huvalid
      rw [if_neg hux, if_pos hvx] at htag
      exact absurd htag
        (State.tag_ne_of_not_hits h (State.inSet_of_wayIndex_eq hv hxw hvx hu) huvalid)
    · rw [if_neg hux] at huvalid
      rw [if_neg hvx] at hvvalid
      rw [if_neg hux, if_neg hvx] at htag
      exact hn k hk u hu v hv huvalid hvvalid htag

theorem State.NoDuplicateTags.applyReset (s : State) : s.applyReset.NoDuplicateTags := by
  intro k _ u _ v _ huvalid
  rw [State.block_applyReset] at huvalid
  exact absurd huvalid (by simp [Block.unfilled])

/-- Settles O32: a hit changes no tag, and a miss writes a tag that no valid block of the set holds. -/
theorem stepKeepsNoDuplicateTags : Obligations.StepKeepsNoDuplicateTags := by
  intro s t hwf hs h
  exact step_keeps (P := State.NoDuplicateTags) (fun _ _ _ _ _ hu => hu)
    (State.NoDuplicateTags.applyReset s) (fun _ hready => hs.access hwf.length_blk hready.2 _ _) hs h

/-! ## R40: the valid blocks of a set are its first ways -/

/-- The ways before the one a miss writes are valid: it is the first invalid one, or the set is full. -/
theorem State.valid_before_allocated {s : State} {a x y : Nat} (hx : s.IsAllocated a x) (hy : y < x) :
    (s.block (s.wayIndex a y)).valid = true := by
  obtain ⟨-, ⟨-, -, hbefore⟩ | ⟨hfull, hxw, -⟩⟩ := hx
  · exact hbefore y hy
  · exact hfull y (by omega)

theorem State.ValidPrefix.access {s : State} (hp : s.ValidPrefix)
    (hlen : s.blk.length = s.cfg.totalBlocks) {a : Nat} (ha : a < 2 ^ s.cfg.aw) (r w : Bool) :
    (s.access a r w).ValidPrefix := by
  intro k hk u hu huvalid v hv
  change u < s.cfg.ways at hu
  rw [State.access_cfg] at huvalid ⊢
  by_cases h : s.Hits a
  · have hkept := fun j => (State.access_valid_tag_of_hit h r w j).1
    rw [hkept] at huvalid ⊢
    exact hp k hk u hu huvalid v hv
  · obtain ⟨-, x, hx, -, hb⟩ := State.access_of_miss hlen ha h r w
    rw [hb] at huvalid ⊢
    split
    · rfl
    · by_cases hux : k * s.cfg.ways + u = s.wayIndex a x
      · obtain ⟨rfl, rfl⟩ := index_inj s.cfg hu (State.isAllocated_lt hx) hux
        exact State.valid_before_allocated hx hv
      · rw [if_neg hux] at huvalid
        exact hp k hk u hu huvalid v hv

theorem State.ValidPrefix.applyReset (s : State) : s.applyReset.ValidPrefix := by
  intro k _ u _ huvalid
  rw [State.block_applyReset] at huvalid
  exact absurd huvalid (by simp [Block.unfilled])

/-- Settles O33: a hit changes no `valid`, and the ways before the one a miss fills are valid already. -/
theorem stepKeepsValidPrefix : Obligations.StepKeepsValidPrefix := by
  intro s t hwf hs h
  exact step_keeps (P := State.ValidPrefix) (fun _ _ _ _ _ hu => hu)
    (State.ValidPrefix.applyReset s) (fun _ hready => hs.access hwf.length_blk hready.2 _ _) hs h

/-! ## R39: the timestamps -/

/-- Where no tag is held twice, an access, hit or miss, writes one block, which is then valid and stamped
with the new clock (R104, R107, R109). -/
theorem State.access_writes_one_block {s : State} (hn : s.NoDuplicateTags)
    (hlen : s.blk.length = s.cfg.totalBlocks) {a : Nat} (ha : a < 2 ^ s.cfg.aw) (r w : Bool) :
    ∃ m, ((s.access a r w).block m).valid = true ∧
      ((s.access a r w).block m).lat = increment s.cfg.cw s.clk ∧
      ∀ j, j ≠ m → (s.access a r w).block j = s.block j := by
  by_cases h : s.Hits a
  · obtain ⟨x, hx, hm⟩ := h
    have hb := State.access_block_of_hit ⟨x, hx, hm⟩ r w
    refine ⟨s.wayIndex a x, ?_, ?_, fun j hj => ?_⟩
    · rw [hb, if_pos hm]; exact hm.2.1
    · rw [hb, if_pos hm]; rfl
    · rw [hb, if_neg fun hmj => hj (State.matches_unique hn ha hmj hm)]
  · obtain ⟨-, x, -, -, hb⟩ := State.access_of_miss hlen ha h r w
    refine ⟨s.wayIndex a x, ?_, ?_, fun j hj => ?_⟩
    · rw [hb, if_pos rfl]; rfl
    · rw [hb, if_pos rfl]; rfl
    · rw [hb, if_neg hj]

theorem State.Timestamps.access {s : State} (hs : s.Timestamps) (hn : s.NoDuplicateTags)
    (hnowrap : s.NoWrap) (hlen : s.blk.length = s.cfg.totalBlocks) {a : Nat} (ha : a < 2 ^ s.cfg.aw)
    (r w : Bool) : (s.access a r w).Timestamps := by
  obtain ⟨m, hmvalid, hmlat, hother⟩ := State.access_writes_one_block hn hlen ha r w
  rw [State.increment_of_noWrap hnowrap] at hmlat
  have hclk : (s.access a r w).clk = s.clk + 1 := State.increment_of_noWrap hnowrap
  -- the new stamp is above every old one
  have hnew : ∀ j, j < s.cfg.totalBlocks → j ≠ m → ((s.access a r w).block j).valid = true →
      ((s.access a r w).block j).lat ≠ ((s.access a r w).block m).lat := by
    intro j hj hjm hjvalid
    rw [hother j hjm] at hjvalid ⊢
    have := ((hs j hj).1 hjvalid).2
    omega
  intro i hi
  change i < s.cfg.totalBlocks at hi
  rw [hclk]
  by_cases him : i = m
  · subst him
    refine ⟨fun _ => by omega, fun hinvalid => absurd hmvalid (by simp [hinvalid]), ?_⟩
    intro j hj _ hjvalid hlat
    by_contra hij
    exact hnew j hj (Ne.symm hij) hjvalid hlat.symm
  · obtain ⟨hrange, hzero, hdistinct⟩ := hs i hi
    refine ⟨fun hivalid => ?_, fun hinvalid => ?_, fun j hj hivalid hjvalid hlat => ?_⟩
    · rw [hother i him] at hivalid ⊢
      have := hrange hivalid
      omega
    · rw [hother i him] at hinvalid ⊢
      exact hzero hinvalid
    · by_cases hjm : j = m
      · subst hjm; exact absurd hlat (hnew i hi him hivalid)
      · rw [hother i him] at hivalid hlat
        rw [hother j hjm] at hjvalid hlat
        exact hdistinct j hj hivalid hjvalid hlat

theorem State.Timestamps.applyReset (s : State) : s.applyReset.Timestamps := by
  intro i _
  simp [State.block_applyReset, Block.unfilled]

/-- Settles O34: an access writes one block, whose new stamp `CLK + 1` is above every stamp there was. -/
theorem stepKeepsTimestamps : Obligations.StepKeepsTimestamps := by
  intro s t hwf hn hs hnowrap h
  exact step_keeps (P := State.Timestamps) (fun _ _ _ _ _ hu => hu)
    (State.Timestamps.applyReset s) (fun _ hready => hs.access hn hnowrap hwf.length_blk hready.2 _ _) hs h

/-! ## R41: the order of the counters -/

theorem increment_of_lt {cw x : Nat} (h : x < 2 ^ cw - 1) : increment cw x = x + 1 :=
  Nat.mod_eq_of_lt (by omega)

/-- `WB_CNT` is the count before, or, on a miss, its increment (R108). -/
theorem State.access_wbCnt_cases (s : State) (a : Nat) (r w : Bool) :
    (s.access a r w).wbCnt = s.wbCnt ∨
      ¬ s.Hits a ∧ (s.access a r w).wbCnt = increment s.cfg.cw s.wbCnt := by
  by_cases h : s.Hits a
  · exact Or.inl (State.access_wbCnt_of_hit h r w)
  · rw [State.access_wbCnt]
    split
    · exact Or.inr ⟨h, rfl⟩
    · exact Or.inl rfl

/-- The miss count of a state in counter order, below the wrap (R106). -/
theorem State.access_missCnt_of_noWrap {s : State} (hs : s.CounterOrder) (hnowrap : s.NoWrap) (a : Nat)
    (r w : Bool) :
    (s.access a r w).missCnt = if s.Hits a then s.missCnt else s.missCnt + 1 := by
  obtain ⟨-, hmiss⟩ := hs
  rw [State.access_missCnt_eq]
  exact if_congr Iff.rfl rfl (increment_of_lt (hmiss.trans_lt hnowrap))

theorem State.CounterOrder.access {s : State} (hs : s.CounterOrder) (hnowrap : s.NoWrap) (a : Nat)
    (r w : Bool) : (s.access a r w).CounterOrder := by
  obtain ⟨hwb, hmiss⟩ := id hs
  have hclk : (s.access a r w).clk = s.clk + 1 := State.increment_of_noWrap hnowrap
  have hmiss' := State.access_missCnt_of_noWrap hs hnowrap a r w
  have hle : s.missCnt ≤ (s.access a r w).missCnt ∧ (s.access a r w).missCnt ≤ s.missCnt + 1 := by
    rw [hmiss']; split <;> omega
  refine ⟨?_, by omega⟩
  rcases s.access_wbCnt_cases a r w with heq | ⟨h, heq⟩
  · omega
  · rw [heq, hmiss', if_neg h, increment_of_lt ((hwb.trans hmiss).trans_lt hnowrap)]
    omega

theorem State.CounterOrder.applyReset (s : State) : s.applyReset.CounterOrder := by
  simp [State.CounterOrder]

/-- Settles O35: a writeback is counted on a miss alone, and a miss on an access alone. -/
theorem stepKeepsCounterOrder : Obligations.StepKeepsCounterOrder := by
  intro s t hs hnowrap h
  exact step_keeps (P := State.CounterOrder) (fun _ _ _ _ _ hu => hu)
    (State.CounterOrder.applyReset s) (fun _ _ => hs.access hnowrap _ _ _) hs h

/-- Settles O36: in the reset state every block is the reset block, every counter 0 and every port empty. -/
theorem invariantsHoldAtReset : Obligations.InvariantsHoldAtReset := by
  intro cfg
  -- a reset of the reset state changes none of its fields
  have hreset : State.resetOf cfg = (State.resetOf cfg).applyReset := rfl
  have hports : (State.resetOf cfg).PortShape := by simp [State.PortShape]
  rw [hreset] at hports ⊢
  exact ⟨(State.wf_iff _).2 ⟨State.EngineShape.applyReset _, hports⟩,
    State.DirtyImpliesValid.applyReset _, State.NoDuplicateTags.applyReset _, State.ValidPrefix.applyReset _,
    State.Timestamps.applyReset _, State.CounterOrder.applyReset _⟩

/-! ## R41, second clause: misses, valid blocks and evictions -/

/-- Two arrays of one length with the same `valid` bits have as many valid blocks. -/
theorem State.validCount_congr {s t : State} (hlen : t.blk.length = s.blk.length)
    (hvalid : ∀ j, (t.block j).valid = (s.block j).valid) : t.validCount = s.validCount := by
  have hmap : t.blk.map Block.valid = s.blk.map Block.valid := by
    refine List.ext_getElem (by simpa using hlen) fun j hj hj' => ?_
    have := hvalid j
    simp only [List.length_map] at hj hj'
    rw [State.block, State.block, List.getD_eq_getElem _ _ hj, List.getD_eq_getElem _ _ hj'] at this
    simpa using this
  have hcount : ∀ l : List Block, l.countP (fun b => b.valid) = (l.map Block.valid).countP id := fun l => by
    rw [List.countP_map]; rfl
  rw [State.validCount, State.validCount, hcount, hcount, hmap]

/-- Writing a valid block in one place of the array adds a valid block if there was none in that place. -/
theorem State.validCount_of_write {s t : State} (hlen : t.blk.length = s.blk.length) {m : Nat} {b : Block}
    (hm : m < s.blk.length) (hb : b.valid = true)
    (hblk : ∀ j, t.block j = if j = m then b else s.block j) :
    t.validCount = s.validCount + if (s.block m).valid then 0 else 1 := by
  have hset : t.blk = s.blk.set m b := by
    refine List.ext_getElem (by simpa using hlen) fun j hj hj' => ?_
    have := hblk j
    simp only [List.length_set] at hj'
    rw [State.block, State.block, List.getD_eq_getElem _ _ hj, List.getD_eq_getElem _ _ hj'] at this
    rw [this, List.getElem_set]
    exact if_congr eq_comm rfl rfl
  have hold : s.block m = s.blk[m] := List.getD_eq_getElem _ _ hm
  have hle := List.boole_getElem_le_countP (p := fun b : Block => b.valid) (l := s.blk) (i := m) hm
  rw [State.validCount, State.validCount, hset, List.countP_set hm, hold, if_pos hb]
  by_cases hv : s.blk[m].valid = true
  · rw [if_pos hv] at hle ⊢
    rw [if_pos hv]
    omega
  · rw [if_neg hv, if_neg hv]
    rfl

/-- An access as 10_state.md R41 counts it: a miss fills an invalid block or evicts a valid one. -/
theorem State.access_misses_fill_or_evict {s : State} (hlen : s.blk.length = s.cfg.totalBlocks)
    (hs : s.CounterOrder) (hnowrap : s.NoWrap) {a : Nat} (ha : a < 2 ^ s.cfg.aw) (r w : Bool) :
    (s.access a r w).missCnt + s.validCount =
      s.missCnt + (s.access a r w).validCount + if ¬ s.Hits a ∧ s.SetFull a then 1 else 0 := by
  rw [State.access_missCnt_of_noWrap hs hnowrap]
  by_cases h : s.Hits a
  · rw [if_pos h, if_neg fun hc => hc.1 h, State.validCount_congr (s.access_length a r w)
      fun j => (State.access_valid_tag_of_hit h r w j).1]
    rfl
  · obtain ⟨-, x, hx, -, hb⟩ := State.access_of_miss hlen ha h r w
    have hxw : x < s.cfg.ways := State.isAllocated_lt hx
    have hm : s.wayIndex a x < s.blk.length := by
      have := base_inside s.cfg a ha
      rw [hlen, State.wayIndex_eq]; omega
    rw [if_neg h, State.validCount_of_write (s.access_length a r w) hm rfl hb]
    -- the block written was valid exactly if the set is full
    have hiff : (s.block (s.wayIndex a x)).valid = true ↔ s.SetFull a := by
      refine ⟨fun hvalid => ?_, fun hfull => hfull x hxw⟩
      obtain ⟨-, ⟨-, hinvalid, -⟩ | ⟨hfull, -⟩⟩ := hx
      · exact absurd hvalid (by simp [hinvalid])
      · exact hfull
    by_cases hfull : s.SetFull a
    · rw [if_pos (hiff.2 hfull), if_pos ⟨h, hfull⟩]; omega
    · rw [if_neg fun hvalid => hfull (hiff.1 hvalid), if_neg fun hc => hfull hc.2]; omega

/-- A reset leaves no valid block. -/
theorem State.validCount_applyReset (s : State) : s.applyReset.validCount = 0 := by
  simp [State.validCount, List.countP_replicate, Block.unfilled]

/-- Settles O54: one access fills an invalid block or evicts a valid one exactly when it misses, and a clock
cycle does what it takes. -/
theorem everyMissFillsOrEvicts : Obligations.EveryMissFillsOrEvicts := by
  refine ⟨fun i s t hwf hs hnowrap hx => ?_, fun s t hwf hs hnowrap h => ?_⟩
  · obtain ⟨hready, rfl⟩ := exec_next.1 hx
    exact State.access_misses_fill_or_evict hwf.length_blk hs hnowrap hready.2 _ _
  · have hcounts : ∀ {u : State}, u.SameEngine t → t.missCnt = u.missCnt ∧ t.validCount = u.validCount :=
      fun ⟨_, hblk, _, hmiss, _, _⟩ => ⟨hmiss, by simp only [State.validCount, hblk]⟩
    rcases step_engine h with ⟨ha, hsame⟩ | ⟨ha, hsame⟩ | ⟨i, ha, hready, hsame⟩
    · obtain ⟨hmiss, hvalid⟩ := hcounts hsame
      rw [ha]
      exact ⟨by simp, fun _ => ⟨hmiss, hvalid.trans s.validCount_applyReset⟩, by simp⟩
    · rw [ha]
      exact ⟨fun _ => hcounts hsame, by simp, by simp⟩
    · obtain ⟨hmiss, hvalid⟩ := hcounts hsame
      rw [ha]
      refine ⟨by simp, by simp, fun j hj => ?_⟩
      obtain rfl : i = j := by simpa using hj
      rw [hmiss, hvalid]
      exact State.access_misses_fill_or_evict hwf.length_blk hs hnowrap hready.2 _ _

/-- The same over a run of accesses, from any state that meets the premises of one access and with clock
enough for all. -/
theorem runTrace_misses_fill_or_evict (is : List Instr) (s : State) (hwf : s.WF) (hs : s.CounterOrder)
    (hreset : s.hasReset = true) (hfit : ∀ i ∈ is, i.WellFormed s.cfg.aw)
    (hclk : s.clk + is.length < 2 ^ s.cfg.cw) :
    ∃ t hits, runTrace (commands is) s = .next (t, hits) ∧
      t.missCnt + s.validCount = s.missCnt + t.validCount + evictions is s := by
  induction is generalizing s with
  | nil => exact ⟨s, [], rfl, by simp [evictions]⟩
  | cons i is ih =>
    rw [List.length_cons] at hclk
    have hready : s.Ready i := ⟨hreset, hfit i (by simp)⟩
    have hnowrap : s.NoWrap := by simp only [State.NoWrap]; omega
    have hone := State.access_misses_fill_or_evict hwf.length_blk hs hnowrap hready.2 i.isRead i.isWrite
    obtain ⟨t, hits, hrun, hmany⟩ := ih (s.access i.address i.isRead i.isWrite)
      (hwf.access hready.2 _ _) (hs.access hnowrap _ _ _) hreset
      (fun j hj => hfit j (List.mem_cons_of_mem _ hj))
      (by rw [State.access_clk, State.increment_of_noWrap hnowrap, State.access_cfg]; omega)
    refine ⟨t, _, runTrace_cons hready hrun, ?_⟩
    simp only [evictions, exec_of_ready hready]
    omega

/-- Settles O37: the balance over a run of accesses, from the reset state, where both sides are 0. -/
theorem missesAreValidBlocksPlusEvictions : Obligations.MissesAreValidBlocksPlusEvictions := by
  intro cfg is hfit hlen
  obtain ⟨hwf, -, -, -, -, hs⟩ := invariantsHoldAtReset cfg
  obtain ⟨t, hits, hrun, hcount⟩ := runTrace_misses_fill_or_evict is (State.resetOf cfg) hwf hs rfl hfit
    (by simpa using hlen)
  have hvalid : (State.resetOf cfg).validCount = 0 := State.validCount_applyReset (State.resetOf cfg)
  rw [hvalid, State.resetOf_missCnt] at hcount
  exact ⟨t, hits, hrun, by omega⟩

/-! ## R29 and R30: the writeback count and the wrap -/

/-- A writeback is counted exactly for a read and write access whose victim is dirty (R29, R108). -/
theorem State.writeback_iff {s : State} (hlen : s.blk.length = s.cfg.totalBlocks) {a : Nat}
    (ha : a < 2 ^ s.cfg.aw) (r w : Bool) :
    (s.setOutcome a r w).writeback = true ↔
      r = true ∧ w = true ∧ ∃ x, s.IsVictim a x ∧ (s.block (s.wayIndex a x)).dirty = true := by
  by_cases h : s.Hits a
  · rw [State.setOutcome_of_hit h]
    exact ⟨fun hc => absurd hc (by simp), fun ⟨_, _, _, hx, _⟩ => absurd h hx.1⟩
  · obtain ⟨-, x, hx, hwb, -⟩ := State.access_of_miss hlen ha h r w
    rw [hwb]
    constructor
    · rintro ⟨hr, hw, hfull, hdirty⟩
      refine ⟨hr, hw, x, ⟨h, hfull, ?_⟩, hdirty⟩
      obtain ⟨-, ⟨hxw, hinvalid, -⟩ | ⟨-, holdest⟩⟩ := hx
      · exact absurd (hfull x hxw) (by simp [hinvalid])
      · exact holdest
    · rintro ⟨hr, hw, y, ⟨-, hfull, holdest⟩, hdirty⟩
      obtain rfl : x = y := State.isAllocated_unique hx ⟨h, Or.inr ⟨hfull, holdest⟩⟩
      exact ⟨hr, hw, hfull, hdirty⟩

/-- Settles O25: a cycle that takes nothing keeps the engine; an access counts by `State.writeback_iff`. -/
theorem writebackCountedExactlyWhen : Obligations.WritebackCountedExactlyWhen := by
  refine ⟨fun s t h hnone => ?_, fun i s hwf hready => ?_⟩
  · rcases step_engine h with ⟨ha, -⟩ | ⟨-, hsame⟩ | ⟨i, ha, -, -⟩
    · rw [hnone] at ha; exact absurd ha (by simp)
    · obtain ⟨-, -, -, -, hwb, -⟩ := hsame
      exact hwb
    · rw [hnone] at ha; exact absurd ha (by simp)
  · have hiff := State.writeback_iff hwf.length_blk hready.2 i.isRead i.isWrite
    refine ⟨_, exec_of_ready hready, fun hc => ?_, fun hc => ?_⟩
    · rw [State.access_wbCnt, if_pos (hiff.2 hc)]; rfl
    · rw [State.access_wbCnt, if_neg fun hw => hc (hiff.1 hw)]

/-- The increment of the largest `CW`-bit value is 0 (R30). -/
theorem increment_max (cw : Nat) : increment cw (2 ^ cw - 1) = 0 := by
  rw [increment, Word.addWrap, Nat.sub_add_cancel Nat.one_le_two_pow, Nat.mod_self]

/-- Settles O26: each counter is incremented by itself, and the increment of `2^CW - 1` is 0. -/
theorem countersWrapToZero : Obligations.CountersWrapToZero := by
  intro i s hready
  refine ⟨_, exec_of_ready hready, s.access_rsp_eq _ _ _, fun hclk => ?_, fun h hmiss => ?_,
    fun hwf hr hw hvictim hwb => ?_⟩
  · rw [State.access_clk, hclk, increment_max]
  · rw [State.access_missCnt_eq, if_neg h, hmiss]
    exact increment_max _
  · have hcounted := (State.writeback_iff hwf.length_blk hready.2 i.isRead i.isWrite).2 ⟨hr, hw, hvictim⟩
    rw [State.access_wbCnt, if_pos hcounted, hwb, increment_max]

/-! ## R21 and R25: blocks that stay as they are -/

/-- No access makes a valid block invalid (20_memory.md R63). -/
theorem State.access_valid_of_valid {s : State} {j : Nat} (h : (s.block j).valid = true) (a : Nat)
    (r w : Bool) : ((s.access a r w).block j).valid = true := by
  rcases s.access_block_cases a r w j with hb | ⟨-, ⟨hb, -⟩ | hb⟩ <;> rw [hb]
  · exact h
  · exact h
  · rfl

/-- Settles O38: a cycle that is no reset leaves the blocks or takes an access, which keeps valid blocks
valid. -/
theorem onlyResetInvalidates : Obligations.OnlyResetInvalidates := by
  intro s t j h hvalid hinvalid
  obtain ⟨-, ⟨ha, -⟩ | ⟨-, hb⟩ | ⟨i, -, -, hb⟩⟩ := step_blocks h
  · exact ha
  · rw [hb, hvalid] at hinvalid; exact absurd hinvalid (by simp)
  · rw [hb, State.access_valid_of_valid hvalid] at hinvalid; exact absurd hinvalid (by simp)

/-- A set index an address produces is a submask of `M_EFF` (40_address_decomposer.md R91). -/
theorem setIndex_and_mEff (cfg : Config) {a : Nat} (ha : a < 2 ^ cfg.aw) :
    (decomp cfg.toParams a).setIndex &&& cfg.mEff = (decomp cfg.toParams a).setIndex := by
  obtain ⟨-, -, -, -, hshift, -, -, -⟩ := cfg.valid
  have hlow : a >>> cfg.setIndexShift &&& (2 ^ (cfg.aw - cfg.setIndexShift) - 1) =
      a >>> cfg.setIndexShift := by
    rw [Nat.and_two_pow_sub_one_eq_mod, Nat.mod_eq_of_lt (shiftRight_lt a _ _ hshift ha)]
  change (a >>> cfg.setIndexShift &&& cfg.setIndexMask) &&&
    (cfg.setIndexMask &&& (2 ^ (cfg.aw - cfg.setIndexShift) - 1)) = a >>> cfg.setIndexShift &&& cfg.setIndexMask
  calc (a >>> cfg.setIndexShift &&& cfg.setIndexMask) &&&
        (cfg.setIndexMask &&& (2 ^ (cfg.aw - cfg.setIndexShift) - 1))
      = (a >>> cfg.setIndexShift &&& (2 ^ (cfg.aw - cfg.setIndexShift) - 1)) &&&
          (cfg.setIndexMask &&& cfg.setIndexMask) := by ac_rfl
    _ = a >>> cfg.setIndexShift &&& cfg.setIndexMask := by rw [hlow, Nat.and_self]

/-- A block of the addressed set has the address's set index (40_address_decomposer.md R93). -/
theorem State.div_ways_of_inSet {s : State} {a j : Nat} (h : s.InSet a j) :
    j / s.cfg.ways = (decomp s.cfg.toParams a).setIndex := by
  obtain ⟨x, hx, rfl⟩ := (s.inSet_iff a j).1 h
  exact (index_div_mod s.cfg _ x hx).1

/-- Settles O40: the set index of such a block is no submask of `M_EFF`, so the block is in no addressed set,
and no access writes it. -/
theorem unreachableBlocksKeepResetValue : Obligations.UnreachableBlocksKeepResetValue := by
  intro s t j hunreachable hj h
  obtain ⟨-, ⟨-, hb⟩ | ⟨-, hb⟩ | ⟨i, -, hready, hb⟩⟩ := step_blocks h
  · exact hb j
  · rw [hb, hj]
  · have hout : ¬ s.InSet i.address j := fun hin => hunreachable (by
      rw [State.div_ways_of_inSet hin]; exact setIndex_and_mEff s.cfg hready.2)
    rw [hb, State.access_block_of_not_inSet hout, hj]

/-! ## R42 and R43: reset -/

/-- A cycle with `rst = 1` resets (70_reset_and_hazards.md R181). -/
theorem step_of_rst {s : State} (h : s.currentPins.rst = true) :
    step s = .next s.nextCycle.applyReset := by
  simp [step, cycle, h]

/-- Settles O13: the cycle is a reset, after which every block is the reset block. -/
theorem resetPinResetsEverything : Obligations.ResetPinResetsEverything := by
  intro s h
  refine ⟨fun i => by simp [State.accepts, h], _, step_of_rst h, rfl, rfl, rfl, by simp, fun j _ => ?_,
    rfl, rfl, rfl, rfl⟩
  exact State.block_applyReset _ _

theorem exec_of_not_hasReset {s : State} (h : s.hasReset = false) (i : Instr) :
    exec i s = .refused .neverReset := by
  simp [exec_eq, accessCommand, h]

/-- Settles O16: the meaning all commands share refuses, and so does the cycle whose word decodes to one. -/
theorem neverResetEngineRefusesAccess : Obligations.NeverResetEngineRefusesAccess := by
  intro s h
  refine ⟨exec_of_not_hasReset h, fun hfree hrst haddr => ?_⟩
  simp only [step, cycle, hrst, hfree, acceptCommand, decode_word, State.nextCycle_cfg, if_pos haddr]
  rw [exec_of_not_hasReset (s := s.nextCycle) h]
  rfl

end Sys2Proof.Machine
end

section
/-! PROOFS. The storage of 20_memory.md: clock cycles against the sequence semantics (R56, R59), and the
places and the `dirty` bits of the block array (R63, R64). -/

namespace Sys2Proof.Machine

/-! ## R56 and R59: clock cycles refine the sequence of operations -/

theorem State.SameEngine.symm {s t : State} (h : s.SameEngine t) : t.SameEngine s := by
  obtain ⟨hcfg, hblk, hclk, hmiss, hwb, hreset⟩ := h
  exact ⟨hcfg.symm, hblk.symm, hclk.symm, hmiss.symm, hwb.symm, hreset.symm⟩

theorem State.SameEngine.trans {s t u : State} (h : s.SameEngine t) (h' : t.SameEngine u) :
    s.SameEngine u := by
  obtain ⟨hcfg, hblk, hclk, hmiss, hwb, hreset⟩ := h
  obtain ⟨hcfg', hblk', hclk', hmiss', hwb', hreset'⟩ := h'
  exact ⟨hcfg'.trans hcfg, hblk'.trans hblk, hclk'.trans hclk, hmiss'.trans hmiss, hwb'.trans hwb,
    hreset'.trans hreset⟩

theorem State.SameEngine.applyReset {s t : State} (h : s.SameEngine t) :
    s.applyReset.SameEngine t.applyReset := by
  obtain ⟨hcfg, -⟩ := h
  simp [State.SameEngine, hcfg]

theorem State.SameEngine.ready {s t : State} (h : s.SameEngine t) {i : Instr} (hi : s.Ready i) :
    t.Ready i := by
  obtain ⟨hcfg, -, -, -, -, hreset⟩ := h
  rwa [State.Ready, hcfg, hreset]

/-- What a trace that starts with a command answers (inversion of `runTrace`). -/
theorem runTrace_command_next {i : Instr} {es : List Event} {s u : State} {hits : List Bool}
    (h : runTrace (.command i :: es) s = .next (u, hits)) :
    s.Ready i ∧ ∃ hits', hits = decide (s.Hits i.address) :: hits' ∧
      runTrace es (s.access i.address i.isRead i.isWrite) = .next (u, hits') := by
  rw [runTrace] at h
  split at h
  · rename_i t hx
    obtain ⟨hready, rfl⟩ := exec_next.1 hx
    split at h
    · rename_i u' hits' hrun
      cases h
      exact ⟨hready, hits', by rw [State.access_rsp_eq]; rfl, hrun⟩
    · exact absurd h (by simp)
    · exact absurd h (by simp)
  · exact absurd h (by simp)
  · exact absurd h (by simp)

/-- A command put before any trace. -/
theorem runTrace_command_of_ready {i : Instr} {es : List Event} {s u : State} {hits : List Bool}
    (hready : s.Ready i)
    (h : runTrace es (s.access i.address i.isRead i.isWrite) = .next (u, hits)) :
    runTrace (.command i :: es) s = .next (u, decide (s.Hits i.address) :: hits) := by
  rw [runTrace, exec_of_ready hready]
  simp only [h, State.access_rsp_eq]
  rfl

/-- A trace sees the engine, not the ports: from the same engine it leads to the same engine, with the same
responses. -/
theorem runTrace_of_sameEngine {es : List Event} {s s' u : State} {hits : List Bool}
    (hsame : s.SameEngine s') (h : runTrace es s = .next (u, hits)) :
    ∃ u', runTrace es s' = .next (u', hits) ∧ u.SameEngine u' := by
  induction es generalizing s s' hits with
  | nil =>
    cases h
    exact ⟨s', rfl, hsame⟩
  | cons e es ih =>
    cases e with
    | reset => exact ih hsame.applyReset h
    | command i =>
      obtain ⟨hready, hits', rfl, hrun⟩ := runTrace_command_next h
      obtain ⟨hacc, hrsp⟩ := hsame.access i.address i.isRead i.isWrite
      obtain ⟨u', hrun', hu⟩ := ih hacc hrun
      have hhit : decide (s'.Hits i.address) = decide (s.Hits i.address) := by
        simpa only [State.access_rsp_eq, Option.some.injEq] using hrsp
      exact ⟨u', hhit ▸ runTrace_command_of_ready (hsame.ready hready) hrun', hu⟩

/-- One clock cycle refines what it takes: the step lemma of the simulation. -/
theorem step_refines_accepts {s t : State} (h : step s = .next t) :
    ∃ u hits, runTrace s.accepts.toList s = .next (u, hits) ∧ u.SameEngine t := by
  rcases step_engine h with ⟨ha, hsame⟩ | ⟨ha, hsame⟩ | ⟨i, ha, hready, hsame⟩ <;> rw [ha]
  · exact ⟨s.applyReset, [], rfl, hsame⟩
  · exact ⟨s, [], rfl, hsame⟩
  · exact ⟨_, _, runTrace_command_of_ready hready rfl, hsame⟩

/-- The first cycle of a run that answers. -/
theorem run_succ_next {n : Nat} {s t : State} (h : core.run (n + 1) s = .next t) :
    ∃ s', step s = .next s' ∧ core.run n s' = .next t := by
  simp only [Host.Core.run] at h
  split at h
  · rename_i s' hs'
    exact ⟨s', hs', h⟩
  · exact absurd h (by simp)
  · exact absurd h (by simp)

theorem State.acceptsIn_succ (n : Nat) {s t : State} (h : step s = .next t) :
    s.acceptsIn (n + 1) = s.accepts.toList ++ t.acceptsIn n := by
  rw [State.acceptsIn, h]

/-- Settles O47, by induction on the number of cycles: the first cycle by `step_refines_accepts`, the others
from the same engine as its trace leaves. -/
theorem cyclesRefineSequence : Obligations.CyclesRefineSequence := by
  intro n
  induction n with
  | zero =>
    intro s t h
    cases h
    exact ⟨s, [], rfl, rfl, rfl, rfl, rfl, rfl, rfl⟩
  | succ n ih =>
    intro s t h
    obtain ⟨s', hstep, hrun⟩ := run_succ_next h
    obtain ⟨u, hits, hfirst, hu⟩ := step_refines_accepts hstep
    obtain ⟨v, hits', hrest, hv⟩ := ih s' t hrun
    obtain ⟨w, hrest', hw⟩ := runTrace_of_sameEngine hu.symm hrest
    rw [State.acceptsIn_succ n hstep]
    exact ⟨w, hits ++ hits', runTrace_append hfirst hrest', hw.symm.trans hv⟩

/-! ## R64: block indices -/

/-- Settles O8: the set index is a submask of `M_EFF`, and the addressed set lies inside the array. -/
theorem blockIndexInArray : Obligations.BlockIndexInArray := by
  intro cfg a ha
  obtain ⟨-, -, -, -, -, -, -, hbounds⟩ := cfg.valid
  have hle : (decomp cfg.toParams a).setIndex ≤ cfg.mEff :=
    (setIndex_and_mEff cfg ha).symm.trans_le Nat.and_le_right
  refine ⟨hle, hbounds, fun w hw => ?_⟩
  have hinside := base_inside cfg a ha
  rw [← base_eq]
  omega

/-! ## R63: dirty blocks -/

/-- An access that leaves a dirty block clean is no write and a miss, and the block is the one it
allocates. -/
theorem State.access_cleans {s : State} (hlen : s.blk.length = s.cfg.totalBlocks) {a j : Nat}
    (ha : a < 2 ^ s.cfg.aw) {r w : Bool} (hdirty : (s.block j).dirty = true)
    (hclean : ((s.access a r w).block j).dirty = false) :
    w = false ∧ ∃ x, s.IsAllocated a x ∧ j = s.wayIndex a x := by
  by_cases h : s.Hits a
  · -- a hit update keeps `dirty` or sets it (R104)
    rw [State.access_block_of_hit h] at hclean
    split at hclean <;> simp [Block.stamp, hdirty] at hclean
  · obtain ⟨-, x, hx, -, hb⟩ := State.access_of_miss hlen ha h r w
    rw [hb] at hclean
    split at hclean
    · rename_i hj
      exact ⟨hclean, x, hx, hj⟩
    · rw [hdirty] at hclean; exact absurd hclean (by simp)

/-- Settles O39: a cycle resets, leaves the blocks, or takes an access, which cleans as
`State.access_cleans` says. -/
theorem dirtyClearedOnlyByReplacement : Obligations.DirtyClearedOnlyByReplacement := by
  intro s t j hwf h hdirty hclean
  obtain ⟨-, ⟨ha, -⟩ | ⟨-, hb⟩ | ⟨i, ha, hready, hb⟩⟩ := step_blocks h
  · exact Or.inl ha
  · rw [hb, hdirty] at hclean; exact absurd hclean (by simp)
  · rw [hb] at hclean
    obtain ⟨hw, x, hx, hj⟩ := State.access_cleans hwf.length_blk hready.2 hdirty hclean
    exact Or.inr ⟨i, x, ha, hw, hx, hj⟩

end Sys2Proof.Machine
end

section
/-! PROOFS. The command words and the request port of 30_encoding.md: encoder against decoder (R72 to R76),
and the handshake, clock cycle by clock cycle (R71, R75). -/

namespace Sys2Proof.Machine

/-! ## R72 to R76: command words -/

/-- The general formula of R73. -/
theorem commandWord_eq (a : Nat) (r w : Bool) : commandWord a r w = a * 4 + r.toNat * 2 + w.toNat := by
  cases r <;> cases w <;> simp [commandWord, concat, bit] <;> omega

@[simp] theorem Pins.command_isRead (p : Pins) : p.command.isRead = p.reqRd := by
  unfold Pins.command; split <;> simp [Instr.isRead, *]

@[simp] theorem Pins.command_isWrite (p : Pins) : p.command.isWrite = p.reqWr := by
  unfold Pins.command; split <;> simp [Instr.isWrite, *]

/-- The command on the pins is encoded by the word on the pins. -/
theorem encode_command (p : Pins) : encode p.command = p.word := by
  rw [encode, Pins.command_address, Pins.command_isRead, Pins.command_isWrite, Pins.word]

/-- The decoder on the encoding of any command: the decoder on the word of pins that present it. -/
theorem decode_encode (aw : Nat) (i : Instr) :
    decode aw (encode i) = if i.WellFormed aw then .ok i else .error .wordTooWide := by
  have hcommand : Pins.command ⟨false, true, i.address, i.isRead, i.isWrite⟩ = i := by cases i <;> rfl
  have h := decode_word aw ⟨false, true, i.address, i.isRead, i.isWrite⟩
  rwa [hcommand] at h

/-- The fields of a word, put together again, are the word. -/
theorem Pins.ofWord_word (c : Nat) : (Pins.ofWord c).word = c := by
  have hbit (k : Nat) : (c.testBit k).toNat = c / 2 ^ k % 2 := Nat.toNat_testBit c k
  simp only [Pins.word, Pins.ofWord, commandWord_eq, addrField, Nat.shiftRight_eq_div_pow, hbit]
  omega

theorem decode_of_wide {aw c : Nat} (h : 2 ^ (aw + 2) ≤ c) : decode aw c = .error .wordTooWide := by
  rw [decode_eq, if_neg h.not_gt]

/-- Settles O3, by `decode_encode`; the bound is read off `commandWord_fields`. -/
theorem decodeOfEncode : Obligations.DecodeOfEncode := by
  intro aw i hi
  obtain ⟨-, -, hlt⟩ := commandWord_fields i.address i.isRead i.isWrite
  exact ⟨(hlt aw).2 hi, by rw [decode_encode, if_pos hi]⟩

/-- Settles O4: a word is the word of the pins that present it, so it decodes to their command. -/
theorem everyWordIsACommand : Obligations.EveryWordIsACommand := by
  refine fun aw c => ⟨fun hc => ?_, decode_of_wide⟩
  have haddr : (Pins.ofWord c).command.address = c / 4 := by
    rw [Pins.command_address, Pins.ofWord, addrField, Nat.shiftRight_eq_div_pow]
  have hwf : (Pins.ofWord c).command.WellFormed aw := by
    rw [Instr.WellFormed, Word.Fits, haddr]; rw [pow_add] at hc; omega
  have hencode : encode (Pins.ofWord c).command = c := by rw [encode_command, Pins.ofWord_word]
  have hdecode : decode aw c = .ok (Pins.ofWord c).command := by
    have h := decode_encode aw (Pins.ofWord c).command
    rwa [hencode, if_pos hwf] at h
  exact ⟨_, hdecode, hwf, haddr, Pins.command_isRead _, Pins.command_isWrite _, hencode⟩

/-- Settles O1: the worked words by evaluation, the formula by `commandWord_eq`. -/
theorem workedEncodings : Obligations.WorkedEncodings :=
  ⟨rfl, rfl, rfl, rfl, rfl, fun _ => commandWord_eq _ _ _⟩

/-- Settles O2: the five words are the encodings of their commands, and the last number is too wide. -/
theorem decodesWordsOfEveryCommand : Obligations.DecodesWordsOfEveryCommand :=
  ⟨(decodeOfEncode 32 (.accN 0x1000) (by decide)).2, (decodeOfEncode 32 (.accW 0x1000) (by decide)).2,
    (decodeOfEncode 32 (.accR 0x1000) (by decide)).2, (decodeOfEncode 32 (.accRW 0x1000) (by decide)).2,
    (decodeOfEncode 64 (.accRW 0xFFFFFFFFFFFFFFFF) (by decide)).2, decode_of_wide (by decide)⟩

/-! ## R71 and R75: what one clock cycle does on the request port -/

/-- A ready engine takes the word that is presented. -/
theorem step_of_present {s : State} (hr : s.currentPins.rst = false)
    (hv : s.currentPins.reqValid = true) (hf : s.inFlight = none) :
    step s = acceptCommand s.currentPins.word s.nextCycle := by
  simp [step, cycle, hr, hv, hf]

theorem step_of_idle {s : State} (hr : s.currentPins.rst = false)
    (hv : s.currentPins.reqValid = false) (hf : s.inFlight = none) : step s = .next s.nextCycle := by
  simp [step, cycle, hr, hv, hf]

/-- A command is accepted exactly when one is presented to an engine with none in flight, without reset. -/
theorem State.accepts_command_iff {s : State} {i : Instr} : s.accepts = some (.command i) ↔
    s.currentPins.rst = false ∧ s.currentPins.reqValid = true ∧ s.inFlight = none ∧
      s.currentPins.command = i := by
  simp only [State.accepts, State.reqReady]
  cases s.currentPins.rst <;> simp [and_assoc]

/-- Settles O42: the presented word decodes to the pins' command (`decode_word`), and `acceptCommand`
executes what the word decodes to. -/
theorem stepRunsDecodedCommand : Obligations.StepRunsDecodedCommand := by
  intro s i hr hv hf hdecode
  refine ⟨?_, ?_⟩
  · rw [decode_word] at hdecode
    split at hdecode
    · exact (Except.ok.inj hdecode).symm
    · exact absurd hdecode (by simp)
  · rw [step_of_present hr hv hf]
    cases hx : exec i s.nextCycle <;> simp only [acceptCommand, State.nextCycle_cfg, hdecode, hx]

/-- Settles O44: the cycle does `nextCycle` alone, which touches no engine field. -/
theorem idleCycleChangesNothing : Obligations.IdleCycleChangesNothing := by
  intro s hr hv hf
  refine ⟨s.nextCycle, step_of_idle hr hv hf, ⟨rfl, rfl, rfl, rfl, rfl, rfl⟩, hf, rfl, ?_⟩
  simp [State.outPorts, State.counterPort, hf]

/-- A clock cycle takes its pins off the list. -/
theorem step_pins {s t : State} (h : step s = .next t) : t.pins = s.pins.tail := by
  rcases step_cases h with ⟨-, rfl⟩ | ⟨f, -, -, -, rfl⟩ | ⟨i, -, -, -, -, -, rfl⟩ | ⟨-, -, -, rfl⟩ <;> simp

/-! ## R71: the response comes after `LATENCY` cycles -/

theorem State.SameEngine.launch (s : State) : s.SameEngine s.launch := by simp [State.SameEngine]

/-- Fewer cycles than a command in flight has left give no response and leave the engine busy. -/
theorem run_of_inFlight_waits {k : Nat} {s : State} {f : InFlight} (hf : s.inFlight = some f)
    (hrsp : s.rsp = none) (hk : k < f.left) (hpins : ∀ p ∈ s.pins.take k, p.rst = false) :
    ∃ t, core.run k s = .next t ∧ t.rsp = none ∧ t.reqReady = false := by
  induction k generalizing s f with
  | zero => exact ⟨s, rfl, hrsp, by simp [State.reqReady, hf]⟩
  | succ k ih =>
    obtain ⟨hr, hpins'⟩ := State.currentPins_no_reset hpins
    have hleft : ¬ f.left ≤ 1 := by omega
    rw [run_succ k (step_of_inFlight hr hf)]
    exact ih (f := ⟨f.hit, f.left - 1⟩) (by simp [hleft]) (by simp [hleft]) (by simp only; omega)
      (by simpa using hpins')

/-- As many cycles as a command in flight has left end with its response. -/
theorem run_of_inFlight_answers {n : Nat} {s : State} {hit : Bool} (hf : s.inFlight = some ⟨hit, n + 1⟩)
    (hpins : ∀ p ∈ s.pins.take (n + 1), p.rst = false) :
    ∃ t, core.run (n + 1) s = .next t ∧ t.rsp = some hit ∧ t.reqReady = true ∧ s.SameEngine t := by
  induction n generalizing s with
  | zero =>
    obtain ⟨hr, -⟩ := State.currentPins_no_reset hpins
    exact ⟨_, run_succ 0 (step_of_inFlight hr hf), by simp, by simp [State.reqReady],
      by simp [State.SameEngine]⟩
  | succ n ih =>
    obtain ⟨hr, hpins'⟩ := State.currentPins_no_reset hpins
    obtain ⟨t, hrun, hrsp, hready, hsame⟩ :=
      ih (s := s.nextCycle.countDown ⟨hit, n + 1 + 1⟩) (by simp) (by simpa using hpins')
    refine ⟨t, (run_succ _ (step_of_inFlight hr hf)).trans hrun, hrsp, hready, .trans ?_ hsame⟩
    simp [State.SameEngine]

/-- A command just executed is launched: with `LATENCY = 0` its response is given at once, else it is in
flight with `LATENCY` cycles left. -/
theorem run_launch_answers {u : State} {hit : Bool} (hrsp : u.rsp = some hit) (hf : u.inFlight = none)
    (hpins : ∀ p ∈ u.pins.take u.cfg.latency, p.rst = false) :
    ∃ t, core.run u.cfg.latency u.launch = .next t ∧ t.rsp = u.rsp ∧ t.reqReady = true ∧ u.SameEngine t := by
  cases hlat : u.cfg.latency with
  | zero =>
    exact ⟨u.launch, rfl, by simp [hlat], by simp [State.reqReady, hlat, hf], State.SameEngine.launch u⟩
  | succ n =>
    obtain ⟨t, hrun, ht, hready, hsame⟩ :=
      run_of_inFlight_answers (s := u.launch) (n := n) (hit := hit) (by simp [hlat, hrsp])
        (by simpa [hlat] using hpins)
    exact ⟨t, hrun, ht.trans hrsp.symm, hready, (State.SameEngine.launch u).trans hsame⟩

/-- Fewer than `LATENCY` cycles after a launch give no response and leave the engine busy. -/
theorem run_launch_waits {u : State} {hit : Bool} (hrsp : u.rsp = some hit)
    (hpins : ∀ p ∈ u.pins.take u.cfg.latency, p.rst = false) {k : Nat} (hk : k < u.cfg.latency) :
    ∃ t, core.run k u.launch = .next t ∧ t.rsp = none ∧ t.reqReady = false := by
  have hlat : u.cfg.latency ≠ 0 := by omega
  refine run_of_inFlight_waits (f := ⟨hit, u.cfg.latency⟩) (by simp [hlat, hrsp]) (by simp [hlat]) hk ?_
  rw [State.launch_pins]
  exact fun p hp => hpins p (List.take_subset_take_left _ hk.le hp)

/-- Settles O46: the accepting cycle executes the command and launches it; until its response and with it
the run is as `run_launch_waits` and `run_launch_answers` say. -/
theorem responseAfterLatency : Obligations.ResponseAfterLatency := by
  intro s i ha hready hpins
  obtain ⟨hr, hv, hf, rfl⟩ := State.accepts_command_iff.1 ha
  obtain ⟨-, hpins'⟩ := State.currentPins_no_reset hpins
  have hstep := step_of_accept hr hv hf hready
  have hrsp := State.access_rsp s.nextCycle s.currentPins.command.address
    s.currentPins.command.isRead s.currentPins.command.isWrite
  refine ⟨fun k hk => ?_, ?_⟩
  · rw [run_succ k hstep]
    exact run_launch_waits hrsp hpins' hk
  · obtain ⟨t, hrun, ht⟩ := run_launch_answers hrsp hf hpins'
    exact ⟨t, _, (run_succ _ hstep).trans hrun, exec_of_ready (s := s.nextCycle) hready, ht⟩

/-! ## R71: every command is answered once, in command order -/

/-- Launching a command, its result is given or owed. -/
theorem State.responses_launch {s : State} (hf : s.inFlight = none) :
    s.launch.rsp.toList ++ s.launch.owed = s.rsp.toList := by
  by_cases hlat : s.cfg.latency = 0
  · simp [State.owed, hlat, hf]
  · cases hrsp : s.rsp <;> simp [State.owed, hlat, hrsp]

/-- Counting down, the result of a command in flight is given or still owed. -/
theorem State.responses_countDown {s : State} (hrsp : s.rsp = none) (f : InFlight) :
    (s.countDown f).rsp.toList ++ (s.countDown f).owed = [f.hit] := by
  by_cases hleft : f.left ≤ 1 <;> simp [State.owed, hleft, hrsp]

/-- Responses are conserved by a cycle without reset: what was owed, with the results of what the cycle
takes, is what it gives and what is owed after it. -/
theorem step_conserves_responses {s t u : State} {hits : List Bool} (h : step s = .next t)
    (hr : s.currentPins.rst = false) (hrun : runTrace s.accepts.toList s = .next (u, hits)) :
    s.owed ++ hits = t.rsp.toList ++ t.owed := by
  rcases step_cases h with ⟨ha, rfl⟩ | ⟨f, hf, ha, -, rfl⟩ | ⟨i, -, hf, ha, -, hready, rfl⟩ | ⟨hf, ha, -, rfl⟩ <;>
    rw [ha] at hrun
  · simp [State.accepts, hr] at ha
  · cases hrun
    rw [State.responses_countDown rfl]
    simp [State.owed, hf]
  · obtain ⟨-, hits', rfl, hnil⟩ := runTrace_command_next hrun
    cases hnil
    have hgiven := State.responses_launch (s := s.nextCycle.access i.address i.isRead i.isWrite) hf
    rw [hgiven, State.access_rsp_eq, State.owed, hf]
    rfl
  · cases hrun
    simp [State.owed, hf]

theorem State.responsesIn_succ (n : Nat) {s t : State} (h : step s = .next t) :
    s.responsesIn (n + 1) = t.rsp.toList ++ t.responsesIn n := by
  rw [State.responsesIn, h]

/-- Settles O48, by induction on the number of cycles: the first conserves responses, and the others see the
engine that its trace leaves. -/
theorem everyCommandAnsweredOnceInOrder : Obligations.EveryCommandAnsweredOnceInOrder := by
  intro n
  induction n with
  | zero =>
    intro s t h _
    cases h
    exact ⟨s, [], rfl, by simp [State.responsesIn]⟩
  | succ n ih =>
    intro s t h hpins
    obtain ⟨s', hstep, hrun⟩ := run_succ_next h
    obtain ⟨hr, hpins'⟩ := State.currentPins_no_reset hpins
    rw [← step_pins hstep] at hpins'
    obtain ⟨u, hits, hfirst, hu⟩ := step_refines_accepts hstep
    obtain ⟨v, hits', hrest, howed⟩ := ih s' t hrun hpins'
    obtain ⟨w, hrest', -⟩ := runTrace_of_sameEngine hu.symm hrest
    refine ⟨w, hits ++ hits', ?_, ?_⟩
    · rw [State.acceptsIn_succ n hstep]
      exact runTrace_append hfirst hrest'
    · calc s.owed ++ (hits ++ hits')
          = s'.rsp.toList ++ (s'.owed ++ hits') := by
            rw [← List.append_assoc, step_conserves_responses hstep hr hfirst, List.append_assoc]
        _ = s.responsesIn (n + 1) ++ t.owed := by
            rw [howed, State.responsesIn_succ n hstep, List.append_assoc]

end Sys2Proof.Machine
end

section
/-! PROOFS. The address decomposer of 40_address_decomposer.md: what `DECOMP` gives (R90, R98), the set
indices and tags it produces (R91, R92), and the address bits it ignores (R95). -/

namespace Sys2Proof.Machine

/-! ## R98: the source's geometry -/

/-- `DECOMP` with the numbers of the source's geometry in place of the parameters. -/
theorem decomp_of_sourceGeometry {p : Params} (hshift : p.setIndexShift = 5) (hmask : p.setIndexMask = 0xFF)
    (htag : p.tagShift = 13) (hways : p.ways = 4) (a : Nat) :
    decomp p a = ⟨a >>> 5 &&& 0xFF, a >>> 13, (a >>> 5 &&& 0xFF) * 4⟩ := by
  simp only [decomp, hshift, hmask, htag, hways]

/-- Settles O5: with the parameters replaced by their values, the eight points evaluate. -/
theorem decompTestPoints : Obligations.DecompTestPoints := by
  intro p hshift hmask htag hways
  simp only [decomp_of_sourceGeometry hshift hmask htag hways]
  decide

/-! ## R90: `DECOMP` of a value moved up to a field -/

/-- The field that starts at bit `s` of an `n`-bit address holds every `n - s`-bit value. -/
theorem mul_two_pow_lt {k n s : Nat} (hs : s < n) (hk : k < 2 ^ (n - s)) : k * 2 ^ s < 2 ^ n := by
  rw [← Nat.sub_add_cancel hs.le, pow_add]
  exact Nat.mul_lt_mul_of_pos_right hk (Nat.two_pow_pos s)

theorem mul_two_pow_shiftRight (k s : Nat) : (k * 2 ^ s) >>> s = k := by
  rw [← Nat.shiftLeft_eq, Nat.shiftLeft_shiftRight]

theorem decomp_setIndex_mul_two_pow (p : Params) (k : Nat) :
    (decomp p (k * 2 ^ p.setIndexShift)).setIndex = k &&& p.setIndexMask := by
  simp only [decomp, mul_two_pow_shiftRight]

theorem decomp_tag_mul_two_pow (p : Params) (t : Nat) : (decomp p (t * 2 ^ p.tagShift)).tag = t := by
  simp only [decomp, mul_two_pow_shiftRight]

/-! ## R92: tags -/

/-- Settles O9: the tag `t` is that of the address with `t` in its tag field. -/
theorem tagRange : Obligations.TagRange := by
  intro cfg
  obtain ⟨-, -, -, -, -, htag, -, -⟩ := cfg.valid
  refine ⟨fun a ha => decomp_tag_lt cfg ha, fun t ht => ?_, fun h0 a => ?_⟩
  · exact ⟨t * 2 ^ cfg.tagShift, mul_two_pow_lt htag ht, decomp_tag_mul_two_pow cfg.toParams t⟩
  · simp only [decomp, h0, Nat.shiftRight_zero]

/-! ## R91: set indices -/

/-- `M_EFF` is a value of the bits of an address that reach the set index. -/
theorem mEff_lt (p : Params) : p.mEff < 2 ^ (p.aw - p.setIndexShift) :=
  Nat.and_lt_two_pow _ (Nat.sub_lt (Nat.two_pow_pos _) Nat.one_pos)

/-- A submask of `M_EFF` is the set index of the address with it in the index field. -/
theorem submask_mEff_produced (cfg : Config) {k : Nat} (hk : k &&& cfg.mEff = k) :
    k * 2 ^ cfg.setIndexShift < 2 ^ cfg.aw ∧
      (decomp cfg.toParams (k * 2 ^ cfg.setIndexShift)).setIndex = k := by
  obtain ⟨-, -, -, -, hshift, -, -, -⟩ := cfg.valid
  have hle : k ≤ cfg.mEff := hk.symm.trans_le Nat.and_le_right
  have hmask : k &&& cfg.setIndexMask = k := by
    rw [← hk, Params.mEff]
    ac_rfl
  exact ⟨mul_two_pow_lt hshift (hle.trans_lt (mEff_lt _)),
    (decomp_setIndex_mul_two_pow cfg.toParams k).trans hmask⟩

theorem setIndex_produced_iff (cfg : Config) (k : Nat) :
    (∃ a, a < 2 ^ cfg.aw ∧ (decomp cfg.toParams a).setIndex = k) ↔ k &&& cfg.mEff = k := by
  constructor
  · rintro ⟨a, ha, rfl⟩
    exact setIndex_and_mEff cfg ha
  · exact fun hk => ⟨_, submask_mEff_produced cfg hk⟩

/-- Settles O6: a set index is a submask of `M_EFF`, and `M_EFF` is one of its own submasks. -/
theorem setIndexRange : Obligations.SetIndexRange := fun cfg =>
  ⟨fun _ ha => (setIndex_and_mEff cfg ha).symm.trans_le Nat.and_le_right,
    submask_mEff_produced cfg (Nat.and_self cfg.mEff)⟩

/-! ## R25: how many set indices there are, and when they are contiguous -/

/-- A submask of `m` is a number whose one bits are among those of `m`. -/
theorem and_eq_left_iff_bitIndices_subset (k m : Nat) :
    k &&& m = k ↔ k.bitIndices.toFinset ⊆ m.bitIndices.toFinset := by
  simp only [Finset.subset_iff, List.mem_toFinset, Nat.mem_bitIndices]
  constructor
  · intro h i hi
    rw [← h, Nat.testBit_and, Bool.and_eq_true] at hi
    exact hi.2
  · intro h
    refine Nat.eq_of_testBit_eq fun i => ?_
    rw [Nat.testBit_and]
    cases hi : k.testBit i
    · rfl
    · rw [h hi]; rfl

theorem popcount_eq_card_bitIndices {n m : Nat} (hm : m < 2 ^ n) :
    Word.popcount n m = m.bitIndices.toFinset.card := by
  have hbits : m.bitIndices.toFinset = ((List.range n).filter fun i => m.testBit i).toFinset := by
    ext i
    have hlt (hi : m.testBit i = true) : i < n :=
      (Nat.pow_lt_pow_iff_right Nat.one_lt_two).1 ((Nat.ge_two_pow_of_testBit hi).trans_lt hm)
    simpa using hlt
  rw [hbits, List.toFinset_card_of_nodup (List.nodup_range.filter _), Word.popcount]

/-- An `n`-bit number has one submask for each set of its one bits. -/
theorem card_of_mem_iff_submask {n m : Nat} (hm : m < 2 ^ n) {S : Finset Nat}
    (hS : ∀ k, k ∈ S ↔ k &&& m = k) : S.card = 2 ^ Word.popcount n m := by
  have himage : S.map Finset.equivBitIndices.toEmbedding = m.bitIndices.toFinset.powerset := by
    ext T
    rw [Finset.mem_map_equiv, hS, and_eq_left_iff_bitIndices_subset, Finset.mem_powerset]
    simp
  rw [← Finset.card_map Finset.equivBitIndices.toEmbedding, himage, Finset.card_powerset,
    popcount_eq_card_bitIndices hm]

/-- The submasks of `m` are the `n`-bit numbers exactly when `m` is `n` one bits. -/
theorem submask_iff_lt_two_pow (m n : Nat) :
    (∀ k, k &&& m = k ↔ k < 2 ^ n) ↔ m = 2 ^ n - 1 := by
  have hpos : 0 < 2 ^ n := Nat.two_pow_pos n
  constructor
  · intro h
    have hlt : m < 2 ^ n := (h m).1 (Nat.and_self m)
    have hge : 2 ^ n - 1 ≤ m := ((h (2 ^ n - 1)).2 (by omega)).symm.trans_le Nat.and_le_right
    omega
  · rintro rfl k
    rw [Nat.and_two_pow_sub_one_eq_mod, Nat.mod_eq_iff_lt hpos.ne']

/-- Settles O7: the set indices produced are the submasks of `M_EFF`, of which `card_of_mem_iff_submask` and
`submask_iff_lt_two_pow` speak. -/
theorem reachableSetIndices : Obligations.ReachableSetIndices := by
  intro cfg
  have haw : cfg.mEff < 2 ^ cfg.aw :=
    (mEff_lt _).trans_le (Nat.pow_le_pow_right Nat.two_pos (Nat.sub_le _ _))
  refine ⟨setIndex_produced_iff cfg, card_of_mem_iff_submask haw fun k => ?_, ?_, fun hmask => ?_⟩
  · simp only [Finset.mem_image, Finset.mem_range, setIndex_produced_iff]
  · simp only [setIndex_produced_iff]
    exact submask_iff_lt_two_pow cfg.mEff cfg.iw
  · rw [Params.mEff, Nat.and_two_pow_sub_one_eq_mod, Nat.mod_eq_of_lt hmask]

/-! ## R95: the address bits that are ignored -/

theorem decomp_tag_eq_iff (p : Params) (a b : Nat) : (decomp p a).tag = (decomp p b).tag ↔
    ∀ k, p.tagShift ≤ k → a.testBit k = b.testBit k := by
  constructor
  · intro h k hk
    have hbit := congrArg (Nat.testBit · (k - p.tagShift)) h
    simpa [decomp, Nat.testBit_shiftRight, Nat.add_sub_cancel' hk] using hbit
  · refine fun h => Nat.eq_of_testBit_eq fun i => ?_
    simp [decomp, Nat.testBit_shiftRight, h (p.tagShift + i)]

theorem decomp_setIndex_eq_iff (p : Params) (a b : Nat) : (decomp p a).setIndex = (decomp p b).setIndex ↔
    ∀ k, p.setIndexShift ≤ k ∧ p.setIndexMask.testBit (k - p.setIndexShift) = true →
      a.testBit k = b.testBit k := by
  constructor
  · rintro h k ⟨hk, hmask⟩
    have hbit := congrArg (Nat.testBit · (k - p.setIndexShift)) h
    simpa [decomp, Nat.testBit_shiftRight, Nat.add_sub_cancel' hk, hmask] using hbit
  · refine fun h => Nat.eq_of_testBit_eq fun i => ?_
    have hbit := h (p.setIndexShift + i)
    cases hmask : p.setIndexMask.testBit i
    · simp [decomp, hmask]
    · simpa [decomp, Nat.testBit_shiftRight, hmask] using hbit

/-- One line is one set index and one tag: the base follows from the set index (R93). -/
theorem decomp_eq_iff (p : Params) (a b : Nat) : decomp p a = decomp p b ↔
    (decomp p a).tag = (decomp p b).tag ∧ (decomp p a).setIndex = (decomp p b).setIndex := by
  simp only [Decomp.mk.injEq, decomp]
  constructor
  · rintro ⟨hset, htag, -⟩
    exact ⟨htag, hset⟩
  · rintro ⟨htag, hset⟩
    exact ⟨hset, htag, by rw [hset]⟩

/-- Settles O10: tag and set index each compare the bits that enter them, and bits past `AW` are 0 in both
addresses. -/
theorem ignoredAddressBits : Obligations.IgnoredAddressBits := by
  intro cfg a b ha hb
  rw [decomp_eq_iff, decomp_tag_eq_iff, decomp_setIndex_eq_iff]
  constructor
  · rintro ⟨htag, hset⟩ k - (hk | hk)
    · exact htag k hk
    · exact hset k hk
  · intro h
    have hall (k : Nat) (hk : cfg.tagShift ≤ k ∨
        (cfg.setIndexShift ≤ k ∧ cfg.setIndexMask.testBit (k - cfg.setIndexShift) = true)) :
        a.testBit k = b.testBit k := by
      rcases Nat.lt_or_ge k cfg.aw with hlt | hge
      · exact h k hlt hk
      · have hpow : 2 ^ cfg.aw ≤ 2 ^ k := Nat.pow_le_pow_right Nat.two_pos hge
        rw [Nat.testBit_lt_two_pow (ha.trans_le hpow), Nat.testBit_lt_two_pow (hb.trans_le hpow)]
    exact ⟨fun k hk => hall k (.inl hk), fun k hk => hall k (.inr hk)⟩

end Sys2Proof.Machine
end

section
/-! PROOFS. The access operation of 41_access.md: what one access does (R103 to R112), its four flavours
(R120 to R124), the accessed line (R125), and runs of accesses (R124, R131 to R134). -/

namespace Sys2Proof.Machine

/-! ## R103 to R105: match and hit -/

/-- `nonMatch < WAYS` is the test of R105 that the source makes. -/
theorem State.hits_iff_nonMatch_lt (s : State) (a : Nat) : s.Hits a ↔ s.nonMatch a < s.cfg.ways := by
  have hcount := List.length_filter_lt_length_iff_exists (l := List.range s.cfg.ways)
    (p := fun w => decide (¬ s.Matches a (s.wayIndex a w)))
  rw [List.length_range] at hcount
  rw [State.nonMatch, hcount]
  simp only [List.mem_range, decide_eq_true_eq, not_not]

/-- Settles O17: the response is the hit decision, the non-match count falls below `WAYS` by each match, and
a hit update reaches matching blocks only. -/
theorem hitIffSomeBlockMatches : Obligations.HitIffSomeBlockMatches := by
  intro i s hready
  refine ⟨_, exec_of_ready hready, ?_, ?_, s.hits_iff_nonMatch_lt _, fun h => ⟨?_, ?_, fun j hj => ?_⟩⟩
  · rw [State.access_rsp_eq]; simp only [Option.some.injEq, decide_eq_true_eq]
  · rw [State.access_rsp_eq]; simp only [Option.some.injEq, decide_eq_false_iff_not]
  · rw [State.access_missCnt_eq, if_pos h]
  · exact State.access_wbCnt_of_hit h _ _
  · rw [State.access_block_of_hit h, if_neg hj]

/-- Settles O18: `State.access_block_of_hit`, whose `Block.stamp` is the update of R104. -/
theorem hitUpdatesEveryMatchingBlock : Obligations.HitUpdatesEveryMatchingBlock := by
  intro i s hready h
  exact ⟨_, exec_of_ready hready, rfl, State.access_block_of_hit h _ _⟩

/-! ## R106 to R109: miss -/

/-- What a miss does to the way it allocates (R107 to R109), that way being given. -/
theorem State.access_of_isAllocated {s : State} (hlen : s.blk.length = s.cfg.totalBlocks) {a x : Nat}
    (ha : a < 2 ^ s.cfg.aw) (hx : s.IsAllocated a x) (r w : Bool) :
    ((s.setOutcome a r w).writeback = true ↔
      r = true ∧ w = true ∧ s.SetFull a ∧ (s.block (s.wayIndex a x)).dirty = true) ∧
    ∀ j, (s.access a r w).block j =
      if j = s.wayIndex a x then
        Block.filled (decomp s.cfg.toParams a).tag (increment s.cfg.cw s.clk) w
      else s.block j := by
  obtain ⟨-, y, hy, hwb, hblk⟩ := State.access_of_miss hlen ha hx.1 r w
  obtain rfl := State.isAllocated_unique hx hy
  exact ⟨hwb, hblk⟩

theorem State.access_rsp_of_miss {s : State} {a : Nat} (h : ¬ s.Hits a) (r w : Bool) :
    (s.access a r w).rsp = some false := by
  rw [State.access_rsp_eq, decide_eq_false h]

theorem State.access_missCnt_of_miss {s : State} {a : Nat} (h : ¬ s.Hits a) (r w : Bool) :
    (s.access a r w).missCnt = (s.missCnt + 1) % 2 ^ s.cfg.cw := by
  rw [State.access_missCnt_eq, if_neg h]

/-- A set with an invalid block is not full. -/
theorem State.not_setFull_of_isFirstInvalid {s : State} {a x : Nat} (hx : s.IsFirstInvalid a x) :
    ¬ s.SetFull a := by
  obtain ⟨hxw, hinvalid, -⟩ := hx
  intro hfull
  rw [hfull x hxw] at hinvalid
  exact absurd hinvalid (by simp)

/-- Settles O19: the first invalid way is the one allocated, and a writeback needs a full set. -/
theorem missFillsFirstInvalidBlock : Obligations.MissFillsFirstInvalidBlock := by
  intro i s w hwf hready h hfirst
  obtain ⟨hwb, hblk⟩ := State.access_of_isAllocated hwf.length_blk hready.2 ⟨h, Or.inl hfirst⟩
    i.isRead i.isWrite
  refine ⟨_, exec_of_ready hready, State.access_rsp_of_miss h _ _, rfl, State.access_missCnt_of_miss h _ _,
    ?_, hblk⟩
  have hno : ¬ (s.setOutcome i.address i.isRead i.isWrite).writeback = true := fun hc =>
    State.not_setFull_of_isFirstInvalid hfirst (hwb.1 hc).2.2.1
  rw [State.access_wbCnt, if_neg hno]

/-- Settles O20: in a full set the oldest way is the one allocated. -/
theorem missReplacesOldestBlock : Obligations.MissReplacesOldestBlock := by
  intro i s w hwf hready h hfull holdest
  obtain ⟨hwb, hblk⟩ := State.access_of_isAllocated hwf.length_blk hready.2 ⟨h, Or.inr ⟨hfull, holdest⟩⟩
    i.isRead i.isWrite
  refine ⟨_, exec_of_ready hready, State.access_rsp_of_miss h _ _, rfl, State.access_missCnt_of_miss h _ _,
    ?_, hblk⟩
  rw [State.access_wbCnt]
  refine if_congr (hwb.trans ?_) rfl rfl
  exact ⟨fun ⟨hr, hw, _, hdirty⟩ => ⟨hr, hw, hdirty⟩, fun ⟨hr, hw, hdirty⟩ => ⟨hr, hw, hfull, hdirty⟩⟩

/-- Settles O15: every block is invalid after reset, so the access misses and way 0 is the first invalid. -/
theorem firstAccessAfterReset : Obligations.FirstAccessAfterReset := by
  intro cfg i hfit
  obtain ⟨hwf, -⟩ := invariantsHoldAtReset cfg
  obtain ⟨-, hcw, hways, -⟩ := cfg.valid
  have hinvalid (j : Nat) : ((State.resetOf cfg).block j).valid = false := by
    rw [State.block_resetOf]; rfl
  have hmiss : ¬ (State.resetOf cfg).Hits i.address := fun ⟨w, _, _, hvalid, _⟩ => by
    rw [hinvalid] at hvalid; exact absurd hvalid (by simp)
  have hone : (0 + 1) % 2 ^ cfg.cw = 1 := Nat.mod_eq_of_lt (Nat.one_lt_two_pow (by omega))
  obtain ⟨t, hexec, hrsp, hclk, hmissCnt, hwb, hblk⟩ := missFillsFirstInvalidBlock i (State.resetOf cfg) 0 hwf
    ⟨rfl, hfit⟩ hmiss ⟨hways, hinvalid _, fun x hx => absurd hx (Nat.not_lt_zero x)⟩
  rw [State.resetOf_clk, State.resetOf_cfg, hone] at hclk
  rw [State.resetOf_missCnt, State.resetOf_cfg, hone] at hmissCnt
  refine ⟨t, hexec, hrsp, hclk, hmissCnt, hwb, fun j => ?_⟩
  rw [hblk, hclk, State.block_resetOf]
  rfl

/-! ## R110 to R112: frame, one scan, completion -/

/-- Settles O21: a command is ready in such a state, and the access gives clock, response and miss count. -/
theorem everyCommandCompletes : Obligations.EveryCommandCompletes := by
  intro s a hreset ha i hi
  have haddr : i.address = a := by
    simp only [List.mem_cons, List.not_mem_nil, or_false] at hi
    obtain rfl | rfl | rfl | rfl := hi <;> rfl
  subst haddr
  exact ⟨_, exec_of_ready ⟨hreset, ha⟩, rfl, s.access_rsp_eq _ _ _, s.access_missCnt_eq _ _ _⟩

/-- Settles O24: a hit by `State.access_block_of_hit`, a miss by `State.access_of_miss`; every other field is
one `State.access` copies. -/
theorem accessFrame : Obligations.AccessFrame := by
  intro i s t hwf hexec
  obtain ⟨hready, rfl⟩ := exec_next.1 hexec
  refine ⟨rfl, rfl, rfl, rfl, rfl, s.access_length _ _ _, rfl,
    fun j hj => State.access_block_of_not_inSet hj _ _, fun h => ⟨?_, ?_, fun j => ?_⟩, fun h => ⟨?_, ?_⟩⟩
  · rw [State.access_missCnt_eq, if_pos h]
  · exact State.access_wbCnt_of_hit h _ _
  · obtain ⟨hvalid, htag⟩ := State.access_valid_tag_of_hit h i.isRead i.isWrite j
    exact ⟨hvalid, htag, fun hj => by rw [State.access_block_of_hit h, if_neg hj]⟩
  · exact State.access_missCnt_of_miss h _ _
  · obtain ⟨-, x, hx, -, hblk⟩ := State.access_of_miss hwf.length_blk hready.2 h i.isRead i.isWrite
    exact ⟨x, hx, hblk⟩

/-- Where invalid blocks have stamp 0 and valid ones at least 1, the oldest way is the one allocated: the
first invalid one if there is one, else the victim (R111). -/
theorem State.isAllocated_of_hasOldest {s : State} {a w : Nat}
    (hstamps : ∀ x, x < s.cfg.ways →
      ((s.block (s.wayIndex a x)).valid = true → 1 ≤ (s.block (s.wayIndex a x)).lat) ∧
      ((s.block (s.wayIndex a x)).valid = false → (s.block (s.wayIndex a x)).lat = 0))
    (h : ¬ s.Hits a) (hw : s.HasOldest a w) : s.IsAllocated a w := by
  obtain ⟨hww, holdest⟩ := id hw
  have hvalid_of_pos (x : Nat) (hx : x < s.cfg.ways) (hpos : 0 < (s.block (s.wayIndex a x)).lat) :
      (s.block (s.wayIndex a x)).valid = true :=
    Bool.eq_true_of_not_eq_false fun hinvalid => hpos.ne' ((hstamps x hx).2 hinvalid)
  refine ⟨h, ?_⟩
  by_cases hvalid : (s.block (s.wayIndex a w)).valid = true
  · -- the smallest stamp is not 0, so no block is invalid
    exact Or.inr ⟨fun x hx => hvalid_of_pos x hx (((hstamps w hww).1 hvalid).trans (holdest x hx).1), hw⟩
  · -- the ways before `w` have larger stamps, so they are valid
    refine Or.inl ⟨hww, Bool.eq_false_of_not_eq_true hvalid, fun x hx => ?_⟩
    exact hvalid_of_pos x (hx.trans hww) ((Nat.zero_le _).trans_lt ((holdest x (hx.trans hww)).2 hx))

/-- The block a miss writes is valid exactly if the set is full. -/
theorem State.valid_of_isAllocated_iff {s : State} {a x : Nat} (hx : s.IsAllocated a x) :
    (s.block (s.wayIndex a x)).valid = true ↔ s.SetFull a := by
  refine ⟨fun hvalid => ?_, fun hfull => hfull x (State.isAllocated_lt hx)⟩
  obtain ⟨-, ⟨-, hinvalid, -⟩ | ⟨hfull, -⟩⟩ := hx
  · exact absurd hvalid (by simp [hinvalid])
  · exact hfull

/-- Settles O29: the oldest way is allocated, and it holds a valid block exactly if the set is full. -/
theorem oneScanSelectsTheSameBlock : Obligations.OneScanSelectsTheSameBlock := by
  intro i s w hwf hready hstamps _ h hw
  have hinside := base_inside s.cfg i.address hready.2
  have halloc : s.IsAllocated i.address w := State.isAllocated_of_hasOldest
    (fun x hx => hstamps _ (by rw [State.wayIndex_eq]; omega)) h hw
  refine ⟨fun x => ⟨fun hx => State.isAllocated_unique hx halloc, fun hx => hx ▸ halloc⟩, _,
    exec_of_ready hready, ?_⟩
  obtain ⟨hwb, -⟩ := State.access_of_isAllocated hwf.length_blk hready.2 halloc i.isRead i.isWrite
  rw [← State.valid_of_isAllocated_iff halloc] at hwb
  rw [State.access_wbCnt]
  exact if_congr hwb rfl rfl

/-! ## R120 to R123: the four flavours -/

/-- A writeback is counted for a read and write access alone (R108). -/
theorem State.access_wbCnt_of_not_both (s : State) (a : Nat) {r w : Bool} (h : (r && w) = false) :
    (s.access a r w).wbCnt = s.wbCnt := by
  have hno : (s.setOutcome a r w).writeback = false := by
    rw [State.setOutcome, accessSet]
    split
    · rfl
    · split
      · rfl
      · rw [countsWriteback, h, Bool.false_and]
  rw [State.access_wbCnt, hno]
  rfl

/-- The `isRead` flag reaches `WB_CNT` alone. -/
theorem State.access_isRead (s : State) (a : Nat) (r r' w : Bool) :
    s.access a r w = { s.access a r' w with wbCnt := (s.access a r w).wbCnt } := by
  have hset : (s.setOutcome a r w).set = (s.setOutcome a r' w).set := by
    rw [State.setOutcome, State.setOutcome, accessSet, accessSet]
    split
    · rfl
    · split <;> rfl
  simp only [State.access, State.setOutcome_hit, hset]

/-- Settles O22: without `isWrite` no writeback is counted, and `isRead` reaches nothing else. -/
theorem neitherFlagActsAsRead : Obligations.NeitherFlagActsAsRead := by
  intro s a
  have heq : s.access a false false = s.access a true false := by
    rw [s.access_isRead a false true false, s.access_wbCnt_of_not_both a rfl,
      ← s.access_wbCnt_of_not_both a (r := true) (w := false) rfl]
  change accessCommand a false false s = accessCommand a true false s
  rw [accessCommand, accessCommand, heq]

/-! ## R124: what the flags can influence -/

/-- A block with its `dirty` bit cleared: the part of it that R124 speaks of. -/
def Block.undirtied (b : Block) : Block := { b with dirty := false }

/-- A state without what the flags of an access can influence: every `dirty` bit and `WB_CNT`. -/
def State.undirtied (s : State) : State := { s with blk := s.blk.map Block.undirtied, wbCnt := 0 }

theorem State.block_undirtied (s : State) (j : Nat) : s.undirtied.block j = (s.block j).undirtied :=
  List.getD_map (n := j) (l := s.blk) (d := Block.unfilled) Block.undirtied

theorem Block.undirtied_eq_iff (b c : Block) :
    b.undirtied = c.undirtied ↔ b.valid = c.valid ∧ b.tag = c.tag ∧ b.lat = c.lat := by
  simp [Block.undirtied]

/-- Blocks that agree up to `dirty`. -/
theorem Block.eq_with_dirty {b c : Block} (h : b.undirtied = c.undirtied) : b = { c with dirty := b.dirty } := by
  rw [Block.undirtied_eq_iff] at h
  obtain ⟨hvalid, htag, hlat⟩ := h
  rw [← hvalid, ← htag, ← hlat]

/-- States that agree up to `dirty` and `WB_CNT` agree in clock, miss count, `valid`, `tag` and `lat`. -/
theorem State.of_undirtied_eq {t u : State} (h : t.undirtied = u.undirtied) :
    u.clk = t.clk ∧ u.missCnt = t.missCnt ∧ ∀ j, (u.block j).valid = (t.block j).valid ∧
      (u.block j).tag = (t.block j).tag ∧ (u.block j).lat = (t.block j).lat := by
  have hclk : u.undirtied.clk = t.undirtied.clk := by rw [h]
  have hmiss : u.undirtied.missCnt = t.undirtied.missCnt := by rw [h]
  refine ⟨hclk, hmiss, fun j => ?_⟩
  rw [← Block.undirtied_eq_iff, ← State.block_undirtied, ← State.block_undirtied, h]

/-- The match test does not see `dirty` (R103). -/
theorem Block.isMatch_comp_undirtied (tag : Nat) :
    Block.isMatch tag ∘ Block.undirtied = Block.isMatch tag := rfl

theorem Block.undirtied_hitUpdate (tag now : Nat) (w : Bool) (b : Block) :
    (b.hitUpdate tag now w).undirtied = b.undirtied.hitUpdate tag now false := by
  have hmatch : b.undirtied.isMatch tag = b.isMatch tag := rfl
  rw [Block.hitUpdate, Block.hitUpdate, hmatch]
  split <;> rfl

/-- The scan for an invalid block does not see `dirty` (R107). -/
theorem firstInvalid_undirtied (set : List Block) :
    firstInvalid (set.map Block.undirtied) = firstInvalid set := by
  rw [firstInvalid, List.findIdx?_map]
  rfl

theorem victimScan_undirtied (set : List Block) (w v best : Nat) :
    victimScan w v best (set.map Block.undirtied) = victimScan w v best set := by
  induction set generalizing w v best with
  | nil => rfl
  | cons b bs ih =>
    simp only [List.map_cons, victimScan, ih]
    rfl

/-- The victim scan does not see `dirty` (R108). -/
theorem victim_undirtied (set : List Block) : victim (set.map Block.undirtied) = victim set := by
  cases set with
  | nil => rfl
  | cons b bs => exact victimScan_undirtied bs _ _ _

/-- Steps 3 to 5 of `ACCESS`, with any flags, are those of `ACC.N` up to `dirty` and the writeback. -/
theorem accessSet_undirtied (tag now : Nat) (r w : Bool) (set : List Block) :
    accessSet tag now false false (set.map Block.undirtied) =
      ⟨(accessSet tag now r w set).set.map Block.undirtied, (accessSet tag now r w set).hit, false⟩ := by
  rw [accessSet, accessSet, List.any_map, Block.isMatch_comp_undirtied, firstInvalid_undirtied,
    victim_undirtied]
  split
  · simp [Block.undirtied_hitUpdate]
  · split
    · rw [List.map_set]; rfl
    · rw [List.map_set]; rfl

theorem writeSet_undirtied (ways base : Nat) (set blk : List Block) :
    writeSet ways base (set.map Block.undirtied) (blk.map Block.undirtied) =
      (writeSet ways base set blk).map Block.undirtied := by
  simp only [writeSet, List.map_append, List.map_take, List.map_drop]

theorem State.setOutcome_undirtied (s : State) (a : Nat) (r w : Bool) :
    s.undirtied.setOutcome a false false =
      ⟨(s.setOutcome a r w).set.map Block.undirtied, (s.setOutcome a r w).hit, false⟩ := by
  rw [State.setOutcome, State.setOutcome, ← accessSet_undirtied, setBlocks, setBlocks, List.map_take,
    List.map_drop]
  rfl

/-- The commuting square of R124: up to `dirty` and `WB_CNT`, an access with any flags is `ACC.N`. -/
theorem State.access_undirtied (s : State) (a : Nat) (r w : Bool) :
    s.undirtied.access a false false = (s.access a r w).undirtied := by
  simp only [State.access, s.setOutcome_undirtied a r w]
  simp only [State.undirtied, writeSet_undirtied]
  rfl

theorem State.hits_undirtied (s : State) (a : Nat) :
    decide (s.undirtied.Hits a) = decide (s.Hits a) := by
  rw [← State.setOutcome_hit _ _ false false, ← State.setOutcome_hit _ _ false false,
    s.setOutcome_undirtied a false false]

/-- An access that does not both read and write, in terms of one with other such flags: only blocks of the
set may differ. -/
theorem State.access_flags_of_not_both (s : State) (a : Nat) {r w r' w' : Bool} (h : (r && w) = false)
    (h' : (r' && w') = false) :
    s.access a r w = { s.access a r' w' with blk := (s.access a r w).blk } := by
  have hwb := s.access_wbCnt_of_not_both a h
  have hwb' := s.access_wbCnt_of_not_both a h'
  rw [State.access_wbCnt] at hwb hwb'
  simp only [State.access, State.setOutcome_hit, hwb, hwb']

/-- Settles O23: `isRead` reaches `WB_CNT` alone; `ACC.R` and `ACC.W` count no writeback and leave the same
undirtied state. -/
theorem flavoursDifferOnlyInDirtyAndWriteback : Obligations.FlavoursDifferOnlyInDirtyAndWriteback := by
  intro s a hreset ha
  refine ⟨_, _, _, exec_of_ready ⟨hreset, ha⟩, exec_of_ready ⟨hreset, ha⟩, exec_of_ready ⟨hreset, ha⟩,
    s.access_isRead a false true true, s.access_flags_of_not_both a rfl rfl, fun j => ⟨?_, fun hj => ?_⟩⟩
  · apply Block.eq_with_dirty
    rw [← State.block_undirtied, ← State.block_undirtied, ← State.access_undirtied, ← State.access_undirtied]
    rfl
  · exact (State.access_block_of_not_inSet hj _ _).trans (State.access_block_of_not_inSet hj _ _).symm

/-! ## R125: the accessed line -/

/-- After an access every match for its address is stamped with the clock (R104, R107, R109). -/
theorem State.lat_of_matches_access {s : State} (hlen : s.blk.length = s.cfg.totalBlocks) {a j : Nat}
    (ha : a < 2 ^ s.cfg.aw) {r w : Bool} (hj : (s.access a r w).Matches a j) :
    ((s.access a r w).block j).lat = (s.access a r w).clk := by
  obtain ⟨hin, hvalid, htag⟩ := hj
  by_cases h : s.Hits a
  · obtain ⟨hvalid', htag'⟩ := State.access_valid_tag_of_hit h r w j
    rw [State.access_block_of_hit h, if_pos ⟨hin, hvalid'.symm.trans hvalid, htag'.symm.trans htag⟩]
    rfl
  · obtain ⟨-, x, -, -, hblk⟩ := State.access_of_miss hlen ha h r w
    rw [hblk] at hvalid htag ⊢
    by_cases hjx : j = s.wayIndex a x
    · rw [if_pos hjx]; rfl
    · rw [if_neg hjx] at hvalid htag
      exact absurd ⟨hin, hvalid, htag⟩ (State.not_matches_of_not_hits h j)

/-- With the stamps of R39, a valid block stamped with the clock is the most recent of all. -/
theorem State.Timestamps.lat_lt_of_stamped {s : State} (hs : s.Timestamps) {i j : Nat}
    (hi : i < s.cfg.totalBlocks) (hvalid : (s.block i).valid = true) (hlat : (s.block i).lat = s.clk)
    (hj : j < s.cfg.totalBlocks) (hne : j ≠ i) : (s.block j).lat < (s.block i).lat := by
  obtain ⟨hrange, -, -⟩ := hs i hi
  obtain ⟨hrange', hzero', hdistinct'⟩ := hs j hj
  have hpos := (hrange hvalid).1
  cases hjvalid : (s.block j).valid with
  | false => rw [hzero' hjvalid]; exact hpos
  | true =>
    have hle := (hrange' hjvalid).2
    have hlatne : (s.block j).lat ≠ (s.block i).lat := fun heq => hne (hdistinct' i hi hjvalid hvalid heq)
    omega

/-- Settles O28: the line is present (`State.hits_access`), at most once since no tag is held twice, and every
match is stamped with the clock, above every other stamp. -/
theorem accessedLineIsPresentOnce : Obligations.AccessedLineIsPresentOnce := by
  intro i s hwf hready hn
  have hlen := hwf.length_blk
  obtain ⟨-, ha⟩ := id hready
  have hpresent := State.hits_access hlen ha i.isRead i.isWrite
  refine ⟨_, exec_of_ready hready, ?_, fun k hfit hline => ?_⟩
  · obtain ⟨w, hw, hm⟩ := id hpresent
    have hlat := State.lat_of_matches_access hlen ha hm
    refine ⟨w, hw, hm, hlat, fun j hj => State.matches_unique (hn.access hlen ha _ _) ha hj hm,
      fun hs hnowrap j hj hne => ?_⟩
    have hinside : s.wayIndex i.address w < s.cfg.totalBlocks := by
      have := base_inside s.cfg i.address ha
      rw [State.access_cfg] at hw
      rw [State.wayIndex_eq]
      omega
    exact (hs.access hn hnowrap hlen ha _ _).lat_lt_of_stamped hinside hm.2.1 hlat hj hne
  · have hhit : (s.access i.address i.isRead i.isWrite).Hits k.address :=
      ((s.access i.address i.isRead i.isWrite).hits_congr hline).2 hpresent
    refine ⟨_, exec_of_ready ⟨hready.1, hfit⟩, ?_⟩
    rw [State.access_rsp_eq, decide_eq_true hhit]

/-! ## Runs of accesses -/

/-- Commands whose addresses fit all complete on an engine that was reset (R112). -/
theorem exists_runTrace (is : List Instr) {s : State} (hreset : s.hasReset = true)
    (hfit : ∀ i ∈ is, i.WellFormed s.cfg.aw) : ∃ t hits, runTrace (commands is) s = .next (t, hits) := by
  induction is generalizing s with
  | nil => exact ⟨s, [], rfl⟩
  | cons i is ih =>
    rw [List.forall_mem_cons] at hfit
    obtain ⟨t, hits, hrun⟩ := ih (s := s.access i.address i.isRead i.isWrite) hreset hfit.2
    exact ⟨t, _, runTrace_cons ⟨hreset, hfit.1⟩ hrun⟩

/-- What a run's accesses keep, given `P` of each of them in the state it meets, holds after the run. -/
theorem runTrace_keeps {P : Instr → State → Prop} {Q : State → Prop}
    (hstep : ∀ i s, s.Ready i → P i s → Q s → Q (s.access i.address i.isRead i.isWrite))
    {is : List Instr} {s t : State} {hits : List Bool} (hall : RunAll P is s)
    (hrun : runTrace (commands is) s = .next (t, hits)) (hs : Q s) : Q t := by
  induction is generalizing s hits with
  | nil => cases hrun; exact hs
  | cons i is ih =>
    obtain ⟨hready, hits', -, hrest⟩ := runTrace_command_next hrun
    rw [RunAll, exec_of_ready hready] at hall
    exact ih hall.2 hrest (hstep i s hready hall.1 hs)

/-- A property of the commands alone holds of every access of a run. -/
theorem RunAll.of_forall_mem {P : Instr → Prop} {is : List Instr} (h : ∀ i ∈ is, P i) (s : State) :
    RunAll (fun i _ => P i) is s := by
  induction is generalizing s with
  | nil => trivial
  | cons i is ih =>
    rw [List.forall_mem_cons] at h
    refine ⟨h.1, ?_⟩
    split
    · exact ih h.2 _
    · trivial
    · trivial

theorem RunAll.and {P P' : Instr → State → Prop} {is : List Instr} {s : State} (h : RunAll P is s)
    (h' : RunAll P' is s) : RunAll (fun i s => P i s ∧ P' i s) is s := by
  induction is generalizing s with
  | nil => trivial
  | cons i is ih =>
    rw [RunAll] at h h' ⊢
    refine ⟨⟨h.1, h'.1⟩, ?_⟩
    cases hexec : exec i s with
    | next t => rw [hexec] at h h'; exact ih h.2 h'.2
    | fault r => trivial
    | refused r => trivial

/-! ### R124: flags do not influence hits -/

/-- A trace is simulated by the trace of `ACC.N` on its addresses. -/
theorem runTrace_undirtied {is : List Instr} {s t : State} {hits : List Bool}
    (h : runTrace (commands is) s = .next (t, hits)) :
    runTrace (commands ((is.map Instr.address).map Instr.accN)) s.undirtied = .next (t.undirtied, hits) := by
  induction is generalizing s hits with
  | nil => cases h; rfl
  | cons i is ih =>
    obtain ⟨hready, hits', rfl, hrun⟩ := runTrace_command_next h
    have hready' : s.undirtied.Ready (.accN i.address) := hready
    rw [← s.hits_undirtied]
    refine runTrace_cons hready' ?_
    change runTrace _ (s.undirtied.access i.address false false) = _
    rw [s.access_undirtied i.address i.isRead i.isWrite]
    exact ih hrun

/-- Settles O49: both traces are simulated by one trace of `ACC.N` from the undirtied state, so they give the
same responses and end in the same undirtied state. -/
theorem flagsDoNotInfluenceHits : Obligations.FlagsDoNotInfluenceHits := by
  intro s is js hreset hfit haddr
  have hfit' : ∀ j ∈ js, j.WellFormed s.cfg.aw := by
    have haddrs : ∀ a ∈ js.map Instr.address, Word.Fits s.cfg.aw a := by
      rw [haddr]; exact List.forall_mem_map.2 hfit
    exact fun j hj => haddrs _ (List.mem_map_of_mem hj)
  obtain ⟨t, hits, ht⟩ := exists_runTrace is hreset hfit
  obtain ⟨u, hits', hu⟩ := exists_runTrace js hreset hfit'
  have hone := runTrace_undirtied hu
  rw [haddr, runTrace_undirtied ht, Host.Outcome.next.injEq, Prod.mk.injEq] at hone
  obtain ⟨hstate, rfl⟩ := hone
  exact ⟨t, u, hits, ht, hu, State.of_undirtied_eq hstate⟩

/-! ### R131: the second access to a line hits -/

/-- An access to another set leaves the hits of an address: it writes no block of its set (R110). -/
theorem State.hits_access_of_setIndex_ne {s : State} {a b : Nat}
    (hne : (decomp s.cfg.toParams b).setIndex ≠ (decomp s.cfg.toParams a).setIndex) (r w : Bool)
    (h : s.Hits a) : (s.access b r w).Hits a := by
  obtain ⟨x, hx, hm⟩ := h
  have hout : ¬ s.InSet b (s.wayIndex a x) := fun hin =>
    hne ((State.div_ways_of_inSet hin).symm.trans (State.div_ways_of_inSet hm.1))
  refine ⟨x, hx, hm.1, ?_⟩
  change ((s.access b r w).block (s.wayIndex a x)).valid = true ∧
    ((s.access b r w).block (s.wayIndex a x)).tag = _
  rw [State.access_block_of_not_inSet hout]
  exact hm.2

/-- Settles O50: the line is present after its access (R125), and accesses to other sets keep it. -/
theorem secondAccessHits : Obligations.SecondAccessHits := by
  intro s i k is hwf hready hfit hother hline
  obtain ⟨hreset, ha⟩ := id hready
  obtain ⟨t, hits, hrun⟩ := exists_runTrace is (s := s.access i.address i.isRead i.isWrite) hreset
    fun j hj => (hother j hj).1
  have hkept : t.cfg = s.cfg ∧ t.hasReset = true ∧ t.Hits i.address :=
    runTrace_keeps (Q := fun u => u.cfg = s.cfg ∧ u.hasReset = true ∧ u.Hits i.address)
      (fun j u _ hne ⟨hcfg, hreset, hhit⟩ =>
        ⟨hcfg, hreset, State.hits_access_of_setIndex_ne (by rw [hcfg]; exact hne) _ _ hhit⟩)
      (RunAll.of_forall_mem (fun j hj => (hother j hj).2) _) hrun
      ⟨rfl, hreset, State.hits_access hwf.length_blk ha _ _⟩
  obtain ⟨hcfg, hreset', hhit⟩ := hkept
  have hhit' : t.Hits k.address := (t.hits_congr (by rw [hcfg]; exact hline)).2 hhit
  refine ⟨t, _, _, runTrace_cons hready hrun, rfl,
    exec_of_ready ⟨hreset', by rw [hcfg]; exact hfit⟩, ?_⟩
  rw [State.access_rsp_eq, decide_eq_true hhit']

/-! ### R132: the least recently used line is evicted -/

/-- The tag of the address of a command. -/
def Instr.tag (cfg : Config) (i : Instr) : Nat := (decomp cfg.toParams i.address).tag

/-- With one addressable set, way `w` of the set of any address is block `w` (10_state.md R25). -/
theorem State.wayIndex_of_mEff_zero {s : State} (hone : s.cfg.mEff = 0) {a : Nat} (ha : a < 2 ^ s.cfg.aw)
    (w : Nat) : s.wayIndex a w = w := by
  have hset := setIndex_and_mEff s.cfg ha
  rw [hone, Nat.and_zero] at hset
  rw [State.wayIndex_set, ← hset, Nat.zero_mul, Nat.zero_add]

theorem State.hits_iff_of_mEff_zero {s : State} (hone : s.cfg.mEff = 0) {a : Nat} (ha : a < 2 ^ s.cfg.aw) :
    s.Hits a ↔ ∃ w, w < s.cfg.ways ∧ (s.block w).valid = true ∧
      (s.block w).tag = (decomp s.cfg.toParams a).tag := by
  have hway := State.wayIndex_of_mEff_zero hone ha
  constructor
  · rintro ⟨w, hw, -, hvalid, htag⟩
    rw [hway] at hvalid htag
    exact ⟨w, hw, hvalid, htag⟩
  · rintro ⟨w, hw, hvalid, htag⟩
    refine ⟨w, hw, s.inSet_wayIndex a w hw, ?_⟩
    rw [hway]
    exact ⟨hvalid, htag⟩

/-- A state of a single-set cache in which the commands `is`, in this order and from reset, filled the first
ways: way `n` holds the line of the `n`-th with stamp `n + 1`. -/
structure State.FilledBy (cfg : Config) (is : List Instr) (s : State) : Prop where
  wf : s.WF
  cfg_eq : s.cfg = cfg
  hasReset : s.hasReset = true
  clk_eq : s.clk = is.length
  filled : ∀ n i, is[n]? = some i → s.block n = ⟨true, i.isWrite, Instr.tag cfg i, n + 1⟩
  unfilled : ∀ n, is.length ≤ n → s.block n = Block.unfilled

theorem State.filledBy_resetOf (cfg : Config) : (State.resetOf cfg).FilledBy cfg [] where
  wf := (invariantsHoldAtReset cfg).1
  cfg_eq := rfl
  hasReset := rfl
  clk_eq := rfl
  filled n i hi := absurd hi (by simp)
  unfilled n _ := State.block_resetOf cfg n

section
variable {cfg : Config} {is : List Instr} {s : State} {i : Instr}

/-- Only the lines filled are present. -/
theorem State.FilledBy.not_hits (hs : s.FilledBy cfg is)
    (hnew : Instr.tag cfg i ∉ is.map (Instr.tag cfg)) : ¬ s.Hits i.address := by
  rintro ⟨w, -, -, hvalid, htag⟩
  rcases Nat.lt_or_ge (s.wayIndex i.address w) is.length with hlt | hge
  · rw [hs.filled _ _ (List.getElem?_eq_getElem hlt), hs.cfg_eq] at htag
    exact hnew (List.mem_map.2 ⟨_, List.getElem_mem hlt, htag⟩)
  · rw [hs.unfilled _ hge] at hvalid
    exact absurd hvalid (by simp [Block.unfilled])

/-- The next new line is filled into the next way (R107). -/
theorem State.FilledBy.access (hs : s.FilledBy cfg is) (hone : cfg.mEff = 0) (hlen : is.length < cfg.ways)
    (hclk : is.length + 1 < 2 ^ cfg.cw) (hfit : i.WellFormed cfg.aw)
    (hnew : Instr.tag cfg i ∉ is.map (Instr.tag cfg)) :
    (s.access i.address i.isRead i.isWrite).FilledBy cfg (is ++ [i]) := by
  obtain rfl := hs.cfg_eq
  have hway := State.wayIndex_of_mEff_zero hone hfit
  have hfirst : s.IsFirstInvalid i.address is.length := by
    refine ⟨hlen, ?_, fun x hx => ?_⟩
    · rw [hway, hs.unfilled _ le_rfl]; rfl
    · rw [hway, hs.filled _ _ (List.getElem?_eq_getElem hx)]
  obtain ⟨-, hblk⟩ := State.access_of_isAllocated hs.wf.length_blk hfit ⟨hs.not_hits hnew, Or.inl hfirst⟩
    i.isRead i.isWrite
  have hnow : increment s.cfg.cw s.clk = is.length + 1 := by
    rw [hs.clk_eq]; exact Nat.mod_eq_of_lt hclk
  simp only [hway, hnow] at hblk
  refine ⟨hs.wf.access hfit _ _, rfl, hs.hasReset, ?_, fun n j hj => ?_, fun n hn => ?_⟩
  · rw [State.access_clk, hnow, List.length_append, List.length_singleton]
  · rw [hblk]
    rcases Nat.lt_trichotomy n is.length with hlt | rfl | hgt
    · rw [List.getElem?_append_left hlt] at hj
      rw [if_neg hlt.ne, hs.filled n j hj]
    · rw [List.getElem?_concat_length, Option.some.injEq] at hj
      rw [if_pos rfl, ← hj]
      rfl
    · rw [List.getElem?_eq_none (by simpa using hgt)] at hj
      exact absurd hj (by simp)
  · rw [List.length_append, List.length_singleton] at hn
    rw [hblk, if_neg (by omega), hs.unfilled n (by omega)]

/-- Once all ways are filled, a new line evicts the one in way 0, which has the smallest stamp (R109). -/
theorem State.FilledBy.access_full (hs : s.FilledBy cfg is) (hone : cfg.mEff = 0)
    (hlen : is.length = cfg.ways) (hfit : i.WellFormed cfg.aw)
    (hnew : Instr.tag cfg i ∉ is.map (Instr.tag cfg)) (n : Nat) :
    (s.access i.address i.isRead i.isWrite).block n =
      if n = 0 then Block.filled (Instr.tag cfg i) (increment cfg.cw s.clk) i.isWrite else s.block n := by
  obtain rfl := hs.cfg_eq
  have hway := State.wayIndex_of_mEff_zero hone hfit
  obtain ⟨-, -, hways, -⟩ := s.cfg.valid
  have hline (w : Nat) (hw : w < s.cfg.ways) :
      (s.block w).valid = true ∧ (s.block w).lat = w + 1 := by
    rw [hs.filled _ _ (List.getElem?_eq_getElem (hlen.symm ▸ hw))]
    exact ⟨rfl, rfl⟩
  have hfull : s.SetFull i.address := fun w hw => by rw [hway]; exact (hline w hw).1
  have holdest : s.HasOldest i.address 0 := ⟨hways, fun x hx => by
    rw [hway, hway, (hline 0 hways).2, (hline x hx).2]
    exact ⟨by omega, fun h => absurd h (Nat.not_lt_zero x)⟩⟩
  obtain ⟨-, hblk⟩ := State.access_of_isAllocated hs.wf.length_blk hfit
    ⟨hs.not_hits hnew, Or.inr ⟨hfull, holdest⟩⟩ i.isRead i.isWrite
  rw [hblk, hway]
  rfl

/-- After that every other line is present: the `n`-th of `mid` is still in way `n + 1`. -/
theorem State.FilledBy.hits_access_full {first j : Instr} {mid : List Instr}
    (hs : s.FilledBy cfg (first :: mid)) (hone : cfg.mEff = 0) (hlen : (first :: mid).length = cfg.ways)
    (hfit : i.WellFormed cfg.aw) (hnew : Instr.tag cfg i ∉ (first :: mid).map (Instr.tag cfg))
    (hj : j ∈ mid ++ [i]) (hjfit : j.WellFormed cfg.aw) :
    (s.access i.address i.isRead i.isWrite).Hits j.address := by
  have hblk := hs.access_full hone hlen hfit hnew
  obtain rfl := hs.cfg_eq
  rcases List.mem_append.1 hj with hmid | hi
  · obtain ⟨n, hn, rfl⟩ := List.getElem_of_mem hmid
    have hway : n + 1 < s.cfg.ways := by rw [← hlen]; exact Nat.succ_lt_succ hn
    rw [State.hits_iff_of_mEff_zero (s := s.access i.address i.isRead i.isWrite) hone hjfit]
    refine ⟨n + 1, hway, ?_⟩
    rw [hblk, if_neg n.succ_ne_zero, hs.filled (n + 1) _ (List.getElem?_eq_getElem (l := mid) hn)]
    exact ⟨rfl, rfl⟩
  · obtain rfl := List.mem_singleton.1 hi
    exact State.hits_access hs.wf.length_blk hfit _ _

/-- After that the first line is absent: way 0 holds the new one, and no other way ever held it. -/
theorem State.FilledBy.not_hits_access_full {first : Instr} {mid : List Instr}
    (hs : s.FilledBy cfg (first :: mid)) (hone : cfg.mEff = 0) (hlen : (first :: mid).length = cfg.ways)
    (hfit : i.WellFormed cfg.aw) (hnew : Instr.tag cfg i ∉ (first :: mid).map (Instr.tag cfg))
    (hfirst : first.WellFormed cfg.aw) (hnotin : Instr.tag cfg first ∉ mid.map (Instr.tag cfg)) :
    ¬ (s.access i.address i.isRead i.isWrite).Hits first.address := by
  have hblk := hs.access_full hone hlen hfit hnew
  obtain rfl := hs.cfg_eq
  rw [State.hits_iff_of_mEff_zero (s := s.access i.address i.isRead i.isWrite) hone hfirst]
  rintro ⟨w, hw, -, htag⟩
  rw [hblk] at htag
  cases w with
  | zero => exact hnew (List.mem_map.2 ⟨first, List.mem_cons_self, htag.symm⟩)
  | succ n =>
    have hn : n < mid.length := Nat.lt_of_succ_lt_succ (hw.trans_eq hlen.symm)
    rw [if_neg n.succ_ne_zero, hs.filled (n + 1) _ (List.getElem?_eq_getElem (l := mid) hn)] at htag
    exact hnotin (List.mem_map.2 ⟨_, List.getElem_mem hn, htag⟩)

end

/-- A miss put after a run of misses. -/
theorem runTrace_concat_of_miss {is : List Instr} {r s : State} {i : Instr}
    (hrun : runTrace (commands is) r = .next (s, List.replicate is.length false)) (hready : s.Ready i)
    (h : ¬ s.Hits i.address) :
    runTrace (commands (is ++ [i])) r =
      .next (s.access i.address i.isRead i.isWrite, List.replicate (is.length + 1) false) := by
  have hlast : runTrace (commands [i]) s = .next (s.access i.address i.isRead i.isWrite, [false]) := by
    rw [← decide_eq_false h]; exact runTrace_cons hready rfl
  rw [List.replicate_succ', commands, List.map_append]
  exact runTrace_append hrun hlast

/-- Distinct tags: the last is none of the others. -/
theorem nodup_map_concat {f : Instr → Nat} {is : List Instr} {i : Instr}
    (h : ((is ++ [i]).map f).Nodup) : (is.map f).Nodup ∧ f i ∉ is.map f := by
  rw [List.map_append, List.map_singleton, ← List.concat_eq_append, List.nodup_concat] at h
  exact h.symm

/-- Accesses to distinct lines fill the ways of a single-set cache in order (R132). -/
theorem runTrace_fills {cfg : Config} (hone : cfg.mEff = 0) (is : List Instr) (hlen : is.length ≤ cfg.ways)
    (hclk : is.length < 2 ^ cfg.cw) (hfit : ∀ i ∈ is, i.WellFormed cfg.aw)
    (hnodup : (is.map (Instr.tag cfg)).Nodup) :
    ∃ s, runTrace (commands is) (State.resetOf cfg) = .next (s, List.replicate is.length false) ∧
      s.FilledBy cfg is := by
  induction is using List.reverseRecOn with
  | nil => exact ⟨_, rfl, State.filledBy_resetOf cfg⟩
  | append_singleton is i ih =>
    rw [List.length_append, List.length_singleton] at hlen hclk ⊢
    obtain ⟨hnodup', hnew⟩ := nodup_map_concat hnodup
    have hi : i.WellFormed cfg.aw := hfit i (by simp)
    obtain ⟨s, hrun, hs⟩ := ih (by omega) (by omega) (fun j hj => hfit j (by simp [hj])) hnodup'
    exact ⟨_, runTrace_concat_of_miss hrun ⟨hs.hasReset, hs.cfg_eq ▸ hi⟩ (hs.not_hits hnew),
      hs.access hone hlen hclk hi hnew⟩

/-- A hit leaves every line present or absent as it was: it changes no `valid` and no `tag` (R104). -/
theorem State.hits_access_of_hit {s : State} {a b : Nat} (h : s.Hits a) (r w : Bool) :
    (s.access a r w).Hits b ↔ s.Hits b := by
  have hkept := State.access_valid_tag_of_hit h r w
  simp only [State.Hits, State.Matches, hkept]
  rfl

/-- Accesses to lines that are all present hit every one, and leave them present. -/
theorem runTrace_of_all_hit {is : List Instr} {s : State} (hreset : s.hasReset = true)
    (hfit : ∀ i ∈ is, i.WellFormed s.cfg.aw) (hhit : ∀ i ∈ is, s.Hits i.address) :
    ∃ t, runTrace (commands is) s = .next (t, List.replicate is.length true) ∧
      ∀ a, t.Hits a ↔ s.Hits a := by
  induction is generalizing s with
  | nil => exact ⟨s, rfl, fun _ => Iff.rfl⟩
  | cons i is ih =>
    rw [List.forall_mem_cons] at hfit hhit
    have hkept (b : Nat) : (s.access i.address i.isRead i.isWrite).Hits b ↔ s.Hits b :=
      State.hits_access_of_hit hhit.1 _ _
    obtain ⟨t, hrun, ht⟩ := ih (s := s.access i.address i.isRead i.isWrite) hreset hfit.2
      fun j hj => (hkept _).2 (hhit.2 j hj)
    refine ⟨t, ?_, fun a => (ht a).trans (hkept a)⟩
    have hall := runTrace_cons ⟨hreset, hfit.1⟩ hrun
    rwa [decide_eq_true hhit.1] at hall

/-- Settles O51: the first `k` commands fill the ways (`runTrace_fills`), the last evicts way 0
(`State.FilledBy.access_full`), and the lines that are left all hit (`runTrace_of_all_hit`). -/
theorem leastRecentlyUsedIsEvicted : Obligations.LeastRecentlyUsedIsEvicted := by
  intro cfg i is hone hlen hfit hnodup hclk
  obtain ⟨-, -, hways, -⟩ := cfg.valid
  -- `last` is the command that evicts; `i :: mid` are the `k` that fill
  obtain rfl | ⟨mid, last, rfl⟩ := List.eq_nil_or_concat' is
  · rw [List.length_nil] at hlen; omega
  rw [← List.cons_append] at hfit hnodup ⊢
  rw [List.length_append, List.length_singleton] at hlen
  have hlen' : (i :: mid).length = cfg.ways := hlen
  obtain ⟨hnodup', hnew⟩ := nodup_map_concat (f := Instr.tag cfg) hnodup
  have hlast : last.WellFormed cfg.aw := hfit last (by simp)
  obtain ⟨m, hrun, hm⟩ := runTrace_fills hone (i :: mid) hlen'.le (by omega)
    (fun j hj => hfit j (List.mem_append_left _ hj)) hnodup'
  obtain rfl := hm.cfg_eq
  have hreadyLast : m.Ready last := ⟨hm.hasReset, hlast⟩
  have hblk := hm.access_full hone hlen' hlast hnew
  have hothers : ∀ j ∈ mid ++ [last], (m.access last.address last.isRead last.isWrite).Hits j.address :=
    fun j hj => hm.hits_access_full hone hlen' hlast hnew hj (hfit j (List.mem_cons_of_mem _ hj))
  have hfirst : ¬ (m.access last.address last.isRead last.isWrite).Hits i.address :=
    hm.not_hits_access_full hone hlen' hlast hnew (hfit i (by simp)) (List.nodup_cons.1 hnodup').1
  obtain ⟨u, hrerun, hu⟩ := runTrace_of_all_hit (s := m.access last.address last.isRead last.isWrite)
    hm.hasReset (fun j hj => hfit j (List.mem_cons_of_mem _ hj)) hothers
  refine ⟨m, _, u, ?_, fun n j hn hj => ?_, ?_, fun n hn => ?_, hfirst, hothers, ?_,
    fun j hj => (hu _).2 (hothers j hj)⟩
  · rw [← hlen', List.take_left]; exact hrun
  · rw [List.getElem?_append_left (hlen'.symm ▸ hn)] at hj
    exact hm.filled n j hj
  · rw [← hlen']
    exact runTrace_concat_of_miss hrun hreadyLast (hm.not_hits hnew)
  · rw [hblk, if_neg hn]
  · rw [← hlen, ← List.length_singleton (a := last), ← List.length_append]
    exact hrerun

/-! ### R133: writebacks -/

/-- A clean block stays clean in an access that does not allocate it and, if it matches, is no write. -/
theorem State.access_keeps_clean {s : State} (hlen : s.blk.length = s.cfg.totalBlocks) {a j : Nat}
    (ha : a < 2 ^ s.cfg.aw) {r w : Bool} (hout : ∀ x, s.IsAllocated a x → s.wayIndex a x ≠ j)
    (hmatch : s.Matches a j → w = false) (hclean : (s.block j).dirty = false) :
    ((s.access a r w).block j).dirty = false := by
  by_cases h : s.Hits a
  · rw [State.access_block_of_hit h]
    split
    · rename_i hm
      rw [Block.stamp, hclean, hmatch hm]
      rfl
    · exact hclean
  · obtain ⟨-, x, hx, -, hblk⟩ := State.access_of_miss hlen ha h r w
    rw [hblk, if_neg (Ne.symm (hout x hx))]
    exact hclean

/-- A dirty block stays dirty in an access that does not allocate it. -/
theorem State.access_keeps_dirty {s : State} (hlen : s.blk.length = s.cfg.totalBlocks) {a j : Nat}
    (ha : a < 2 ^ s.cfg.aw) {r w : Bool} (hout : ∀ x, s.IsAllocated a x → s.wayIndex a x ≠ j)
    (hdirty : (s.block j).dirty = true) : ((s.access a r w).block j).dirty = true := by
  refine Bool.eq_true_of_not_eq_false fun hclean => ?_
  obtain ⟨-, x, hx, hj⟩ := State.access_cleans hlen ha hdirty hclean
  exact hout x hx hj.symm

/-- The writeback of an access that replaces way `v`: counted exactly if the block there is dirty. -/
theorem State.access_wbCnt_of_isVictim {s : State} (hlen : s.blk.length = s.cfg.totalBlocks) {a v : Nat}
    (ha : a < 2 ^ s.cfg.aw) (hv : s.IsVictim a v) :
    (s.access a true true).wbCnt =
      if (s.block (s.wayIndex a v)).dirty = true then (s.wbCnt + 1) % 2 ^ s.cfg.cw else s.wbCnt := by
  obtain ⟨h, hfull, holdest⟩ := hv
  obtain ⟨hwb, -⟩ := State.access_of_isAllocated hlen ha ⟨h, Or.inr ⟨hfull, holdest⟩⟩ true true
  rw [State.access_wbCnt]
  refine if_congr (hwb.trans ?_) rfl rfl
  exact ⟨fun ⟨_, _, _, hdirty⟩ => hdirty, fun hdirty => ⟨rfl, rfl, hfull, hdirty⟩⟩

/-- Settles O52: the block is filled with `dirty = isWrite`, and the run keeps that bit up to the
replacement. -/
theorem writebackAccounting : Obligations.WritebackAccounting := by
  intro s t u i k is hits w v hwf halloc hexec hkeep hrun hr hw hready hvictim hplace
  obtain ⟨hready₀, rfl⟩ := exec_next.1 hexec
  obtain ⟨-, hblk⟩ := State.access_of_isAllocated hwf.length_blk hready₀.2 halloc i.isRead i.isWrite
  have hfilled : ((s.access i.address i.isRead i.isWrite).block (s.wayIndex i.address w)).dirty = i.isWrite := by
    rw [hblk, if_pos rfl]; rfl
  have hwf₁ : (s.access i.address i.isRead i.isWrite).WF := hwf.access hready₀.2 _ _
  have hdirty (hi : i.isWrite = true) : u.WF ∧ (u.block (s.wayIndex i.address w)).dirty = true :=
    runTrace_keeps (Q := fun q => q.WF ∧ (q.block (s.wayIndex i.address w)).dirty = true)
      (fun j q hj hout ⟨hq, hd⟩ =>
        ⟨hq.access hj.2 _ _, State.access_keeps_dirty hq.length_blk hj.2 hout hd⟩)
      hkeep hrun ⟨hwf₁, hfilled.trans hi⟩
  have hclean (hi : i.isWrite = false) (hreads : RunAll (fun j r =>
        r.Matches j.address (s.wayIndex i.address w) → j.isWrite = false) is _) :
      u.WF ∧ (u.block (s.wayIndex i.address w)).dirty = false :=
    runTrace_keeps (Q := fun q => q.WF ∧ (q.block (s.wayIndex i.address w)).dirty = false)
      (fun j q hj ⟨hout, hread⟩ ⟨hq, hd⟩ =>
        ⟨hq.access hj.2 _ _, State.access_keeps_clean hq.length_blk hj.2 hout hread hd⟩)
      (hkeep.and hreads) hrun ⟨hwf₁, hfilled.trans hi⟩
  refine ⟨_, exec_of_ready hready, fun hi => ?_, fun hi hreads => ?_⟩
  · obtain ⟨hu, hd⟩ := hdirty hi
    rw [hr, hw, State.access_wbCnt_of_isVictim hu.length_blk hready.2 hvictim, hplace, if_pos hd]
  · obtain ⟨hu, hd⟩ := hclean hi hreads
    rw [hr, hw, State.access_wbCnt_of_isVictim hu.length_blk hready.2 hvictim, hplace, hd]
    rfl

/-! ### R134 and R31: the counters -/

/-- Below the wrap an access raises `WB_CNT` by at most 1, and a hit does not (R29, R41). -/
theorem State.access_wbCnt_of_noWrap {s : State} (hs : s.CounterOrder) (hnowrap : s.NoWrap) (a : Nat)
    (r w : Bool) : s.wbCnt ≤ (s.access a r w).wbCnt ∧
      (s.access a r w).wbCnt ≤ s.wbCnt + if s.Hits a then 0 else 1 := by
  obtain ⟨hwb, hmiss⟩ := hs
  rcases s.access_wbCnt_cases a r w with heq | ⟨h, heq⟩
  · omega
  · rw [heq, increment_of_lt ((hwb.trans hmiss).trans_lt hnowrap), if_neg h]
    omega

/-- Settles O53, by induction on the commands: one access of a state in counter order adds 1 to the clock, 1 to
`MISS_CNT` if it misses, and to `WB_CNT` at most what it adds to `MISS_CNT`. -/
theorem countersAreMonotonic : Obligations.CountersAreMonotonic := by
  intro s is
  induction is generalizing s with
  | nil =>
    intro _ hs _ _
    exact ⟨s, [], rfl, rfl, rfl, rfl, le_rfl, le_rfl, hs⟩
  | cons i is ih =>
    intro hreset hs hfit hclk
    rw [List.forall_mem_cons] at hfit
    rw [List.length_cons] at hclk
    have hnowrap : s.NoWrap := by simp only [State.NoWrap]; omega
    have hclk₁ : (s.access i.address i.isRead i.isWrite).clk = s.clk + 1 :=
      State.increment_of_noWrap hnowrap
    obtain ⟨t, hits, hrun, hlen, htclk, hmiss, hwb, hwb', horder⟩ :=
      ih (s.access i.address i.isRead i.isWrite) hreset (hs.access hnowrap _ _ _) hfit.2
        (by rw [hclk₁, State.access_cfg]; omega)
    have hmiss₁ : (s.access i.address i.isRead i.isWrite).missCnt =
        s.missCnt + if s.Hits i.address then 0 else 1 := by
      rw [State.access_missCnt_of_noWrap hs hnowrap]
      split <;> rfl
    have hwb₁ := State.access_wbCnt_of_noWrap hs hnowrap i.address i.isRead i.isWrite
    have hcount : (decide (s.Hits i.address) :: hits).countP (fun hit => !hit) =
        hits.countP (fun hit => !hit) + if s.Hits i.address then 0 else 1 := by
      by_cases h : s.Hits i.address <;> simp [h]
    refine ⟨t, _, runTrace_cons ⟨hreset, hfit.1⟩ hrun, by rw [List.length_cons, List.length_cons, hlen],
      by rw [htclk, hclk₁, List.length_cons]; omega, ?_⟩
    rw [hcount]
    exact ⟨by omega, by omega, by omega, horder⟩

end Sys2Proof.Machine
end

section
/-! PROOFS. Status and construction of 42_status_and_construction.md: the read-out of the counters (R140),
`CONSTRUCT` and its checks (R145), and the canonical geometries (R147, R148). -/

namespace Sys2Proof.Machine

/-! ## R148: canonical geometries -/

/-- In a canonical geometry the low `iw` bits of the line number are the set index, and the bits above them
are the tag. -/
theorem decomp_of_canonical {p : Params} {iw : Nat} (hmask : p.setIndexMask = 2 ^ iw - 1)
    (htag : p.tagShift = p.setIndexShift + iw) (a : Nat) :
    (decomp p a).setIndex = a / 2 ^ p.setIndexShift % 2 ^ iw ∧
      (decomp p a).tag = a / 2 ^ p.setIndexShift / 2 ^ iw := by
  simp only [decomp, hmask, htag, Nat.and_two_pow_sub_one_eq_mod, Nat.shiftRight_eq_div_pow, pow_add,
    Nat.div_div_eq_div_mul, and_self]

/-- The tag field starts inside the address, so all mask bits are reached by address bits. -/
theorem mEff_of_canonical {cfg : Config} {iw : Nat} (hmask : cfg.setIndexMask = 2 ^ iw - 1)
    (htag : cfg.tagShift = cfg.setIndexShift + iw) : cfg.mEff = cfg.setIndexMask := by
  obtain ⟨-, -, -, -, -, htagShift, -, -⟩ := cfg.valid
  obtain ⟨-, -, -, hreached⟩ := reachableSetIndices cfg
  have hle : 2 ^ iw ≤ 2 ^ (cfg.aw - cfg.setIndexShift) :=
    Nat.pow_le_pow_right Nat.two_pos (by omega)
  have hpos : 0 < 2 ^ iw := Nat.two_pow_pos iw
  exact hreached (by omega)

/-- A block whose set has a submask of `M_EFF` as its number is a way of an addressed set (R25, R93). -/
theorem exists_address_of_block {cfg : Config} {j : Nat} (hj : j / cfg.ways &&& cfg.mEff = j / cfg.ways) :
    ∃ a w, a < 2 ^ cfg.aw ∧ w < cfg.ways ∧ j = (decomp cfg.toParams a).base + w := by
  obtain ⟨-, -, hways, -, -, -, -, -⟩ := cfg.valid
  obtain ⟨a, ha, hset⟩ := (setIndex_produced_iff cfg (j / cfg.ways)).2 hj
  refine ⟨a, j % cfg.ways, ha, Nat.mod_lt j hways, ?_⟩
  rw [base_eq, hset, Nat.div_add_mod']

/-- Settles O11: a line number is its quotient and its remainder by the number of sets, and these are tag and
set index. -/
theorem canonicalLinesDoNotAlias : Obligations.CanonicalLinesDoNotAlias := by
  rintro cfg ⟨-, iw, -, hmask, htag, htotal⟩
  have hmEff : cfg.mEff = cfg.setIndexMask := mEff_of_canonical hmask htag
  have hdecomp := decomp_of_canonical hmask htag
  refine ⟨hmEff, fun j hj => exists_address_of_block ?_, ⟨iw, hmask, fun a _ => hdecomp a⟩,
    fun a b _ _ => ?_⟩
  · have hset : j / cfg.ways < 2 ^ iw := Nat.div_lt_of_lt_mul (htotal ▸ hj)
    exact (submask_iff_lt_two_pow cfg.mEff iw).2 (hmEff.trans hmask) _ |>.2 hset
  · rw [decomp_eq_iff, (hdecomp a).1, (hdecomp a).2, (hdecomp b).1, (hdecomp b).2, ← Nat.ext_div_mod_iff]

/-! ## R145: construction -/

theorem checkHolds_iff (p : Params) (c : GeomCheck) : checkHolds p c = true ↔ GeomCondition p c := by
  cases c <;> simp [checkHolds, GeomCondition]

/-- A geometry is valid when every check holds. -/
theorem geomValid_iff (p : Params) : p.GeomValid ↔ ∀ c, GeomCondition p c := by
  constructor
  · rintro ⟨haw, hcw, hways, hdiv, hishift, htshift, hmask, hbounds⟩ c
    cases c
    exacts [haw, hcw, hways, hdiv, hishift, htshift, hmask, hbounds]
  · exact fun h => ⟨h .gAw, h .gCw, h .gWays, h .gDiv, h .gIshift, h .gTshift, h .gMask, h .gBounds⟩

/-- The rank of a check is its place in the order of CONSTRUCT. -/
theorem checkOrder_checkRank (c : GeomCheck) : checkOrder[checkRank c]? = some c := by
  cases c <;> rfl

theorem checkRank_checkOrder : ∀ i (hi : i < checkOrder.length), checkRank checkOrder[i] = i := by
  decide

/-- `firstFailing` answers with a failing check before which, in the order of R145, no check fails. -/
theorem firstFailing_some {p : Params} {c : GeomCheck} (h : firstFailing p = some c) :
    ¬ GeomCondition p c ∧ ∀ d, checkRank d < checkRank c → GeomCondition p d := by
  obtain ⟨hfails, i, hi, rfl, hbefore⟩ := List.find?_eq_some_iff_getElem.1 h
  simp only [Bool.not_eq_true', ← Bool.not_eq_true, checkHolds_iff, not_not] at hfails hbefore
  refine ⟨hfails, fun d hd => ?_⟩
  rw [checkRank_checkOrder i hi] at hd
  obtain ⟨_, hplace⟩ := List.getElem?_eq_some_iff.1 (checkOrder_checkRank d)
  exact hplace ▸ hbefore (checkRank d) hd

/-- `firstFailing` answers with no check only when the geometry is valid. -/
theorem geomValid_of_firstFailing_none {p : Params} (h : firstFailing p = none) : p.GeomValid := by
  rw [geomValid_iff]
  intro c
  have hc := List.find?_eq_none.1 h c (List.mem_of_getElem? (checkOrder_checkRank c))
  rw [Bool.not_eq_true, Bool.not_eq_false'] at hc
  exact (checkHolds_iff p c).1 hc

/-- Settles O12: an invalid geometry has a first failing check, and `construct` faults with it. -/
theorem constructionChecksGeometry : Obligations.ConstructionChecksGeometry := by
  intro p n
  constructor
  · intro h
    exact ⟨State.powerOn ⟨p, h⟩ n, dif_pos h, rfl, rfl⟩
  · intro h
    obtain ⟨c, hc⟩ : ∃ c, firstFailing p = some c :=
      Option.ne_none_iff_exists'.1 (mt geomValid_of_firstFailing_none h)
    exact ⟨c, by rw [construct, dif_neg h, hc, Option.getD_some], firstFailing_some hc⟩

/-! ## R140: the counter ports -/

/-- With no command in flight a counter port shows its counter. -/
theorem State.counterPort_of_idle {s : State} (h : s.inFlight = none) (register value : Nat) :
    s.counterPort register value = value := by
  rw [State.counterPort, h, Option.isNone_none, if_pos rfl]

/-- Settles O45: each counter port by `State.counterPort_of_idle`, the response port by its definition. -/
theorem portsShowCounters : Obligations.PortsShowCounters := by
  intro s h
  refine ⟨s.counterPort_of_idle h 0 s.clk, s.counterPort_of_idle h 1 s.missCnt,
    s.counterPort_of_idle h 2 s.wbCnt, fun hit hrsp => ?_⟩
  simp only [State.outPorts, hrsp, Option.isSome_some, Option.getD_some, and_self]

end Sys2Proof.Machine
end

section
/-! PROOFS. Exceptions of 60_exceptions.md: no access and no clock cycle faults, and an engine that was
reset always has a next cycle (R162). -/

namespace Sys2Proof.Machine

/-! ## R162: nothing at run time faults -/

/-- An access answers, or it is refused by name. -/
theorem accessCommand_ne_fault (a : Nat) (r w : Bool) (s : State) (e : Fault) :
    accessCommand a r w s ≠ .fault e := by
  unfold accessCommand
  split
  · split <;> nofun
  · nofun

theorem exec_ne_fault (i : Instr) (s : State) (e : Fault) : exec i s ≠ .fault e := by
  rw [exec_eq]
  exact accessCommand_ne_fault _ _ _ s e

/-- Accepting a word faults only where its command does, and no command does. -/
theorem acceptCommand_ne_fault (word : Nat) (s : State) (e : Fault) :
    acceptCommand word s ≠ .fault e := by
  unfold acceptCommand
  split
  · nofun
  · split
    · nofun
    · rename_i hexec
      exact absurd hexec (exec_ne_fault _ s _)
    · nofun

/-- Of the four kinds of cycle only an accepted command could fault. -/
theorem step_ne_fault (s : State) (e : Fault) : step s ≠ .fault e := by
  unfold step cycle
  split
  · nofun
  · split
    · nofun
    · split
      · exact acceptCommand_ne_fault _ _ e
      · nofun

/-! ## R162: every cycle of a reset engine has a next state -/

/-- The address driven in the coming cycle is of `AW` bits (30_encoding.md R70), also when nothing is
driven. -/
theorem State.PortShape.reqAddr_lt {s : State} (h : s.PortShape) :
    s.currentPins.reqAddr < 2 ^ s.cfg.aw := by
  obtain ⟨-, hpins⟩ := h
  unfold State.currentPins
  cases hp : s.pins with
  | nil => exact Nat.two_pow_pos _
  | cons p ps => exact hpins p (by simp [hp])

/-- With an `AW`-bit address on the port, each of the four kinds of cycle of a reset engine answers. -/
theorem exists_step {s : State} (haddr : s.currentPins.reqAddr < 2 ^ s.cfg.aw)
    (hreset : s.hasReset = true) : ∃ t, step s = .next t := by
  cases hrst : s.currentPins.rst with
  | true => exact ⟨_, step_of_rst hrst⟩
  | false =>
    cases hfly : s.inFlight with
    | some f => exact ⟨_, step_of_inFlight hrst hfly⟩
    | none =>
      cases hvalid : s.currentPins.reqValid with
      | false => exact ⟨_, step_of_idle hrst hvalid hfly⟩
      | true =>
        have hfit : s.currentPins.command.WellFormed s.cfg.aw := by
          rwa [Instr.WellFormed, Pins.command_address]
        exact ⟨_, step_of_accept hrst hvalid hfly ⟨hreset, hfit⟩⟩

/-- Settles O27: no command and no cycle faults (`exec_ne_fault`, `step_ne_fault`), and the shape of the
ports bounds the address for `exists_step`. -/
theorem noCycleFaults : Obligations.NoCycleFaults :=
  ⟨exec_ne_fault, step_ne_fault, fun s hwf hreset =>
    have ⟨_, hports⟩ := s.wf_iff.1 hwf
    exists_step hports.reqAddr_lt hreset⟩

end Sys2Proof.Machine
end

section
/-! PROOFS. Reset and hazards of 70_reset_and_hazards.md: a second reset cycle (R180), and the cycles of a
command in flight (R183). -/

namespace Sys2Proof.Machine

/-! ## R180: reset is idempotent -/

/-- After a reset the engine is already as the next reset leaves it, whatever the cycle between does to the
ports. -/
theorem State.SameEngine.applyReset_nextCycle_applyReset (s : State) :
    s.applyReset.SameEngine s.applyReset.nextCycle.applyReset := by
  simp [State.SameEngine]

/-- Settles O14: both cycles reset (`step_of_rst`), and the second reset finds the engine of the first. -/
theorem resetIsIdempotent : Obligations.ResetIsIdempotent := by
  intro s t hrst hstep hrst'
  obtain rfl : s.nextCycle.applyReset = t := Host.Outcome.next.inj ((step_of_rst hrst).symm.trans hstep)
  exact ⟨_, step_of_rst hrst', State.SameEngine.applyReset_nextCycle_applyReset s.nextCycle⟩

/-! ## R183: a command in flight -/

theorem State.reqReady_of_inFlight {s : State} {f : InFlight} (hf : s.inFlight = some f) :
    s.reqReady = false := by
  rw [State.reqReady, hf, Option.isNone_some]

/-- With `req_ready` low and no reset the engine takes nothing, whatever is presented. -/
theorem State.accepts_of_not_reqReady {s : State} (hrst : s.currentPins.rst = false)
    (hready : s.reqReady = false) : s.accepts = none := by
  simp [State.accepts, hrst, hready]

/-- A cycle of a command in flight touches the ports and the count alone. -/
theorem State.SameEngine.nextCycle_countDown (s : State) (f : InFlight) :
    s.SameEngine (s.nextCycle.countDown f) := by
  simp [State.SameEngine]

/-- Settles O43: the cycle does `nextCycle` and `countDown` alone; the two cases of the count are
`countDown`'s. -/
theorem busyEngineAcceptsNothing : Obligations.BusyEngineAcceptsNothing := by
  intro s f hf hrst
  have hready := State.reqReady_of_inFlight hf
  refine ⟨hready, State.accepts_of_not_reqReady hrst hready, _, step_of_inFlight hrst hf,
    State.SameEngine.nextCycle_countDown s f, fun hlast => ?_, fun hmore => ?_⟩
  · simp [State.reqReady, hlast]
  · simp [Nat.not_le.2 hmore]

end Sys2Proof.Machine
end
